-- ==== Sys2Proof/Word.lean ====
section
/-! DEFINITION. The words of the block: GPIO bytes, the 16-bit command and response words, and register
identifiers. -/

namespace Sys2Proof

/-- One 8-bit value: a GPIO register's contents, a mask, a speed, a position (00_scope.md R8, R9). -/
abbrev Byte := BitVec 8

/-- One 16-bit command word or response word, a whole parallel word with no byte order
(20_memory.md R58; 30_encoding.md R80, R81). -/
abbrev Word := BitVec 16

/-- The identifier of a GPIO register.  The spec leaves the type OPEN: any type with decidable equality
(00_scope.md R9, D22).  DESIGN CHOICE, entry 1: `State` takes the natural numbers and only ever compares two of them;
`Open.Params` (Machine/Open.lean) takes any such type. -/
abbrev RegId := Nat

end Sys2Proof
end

