-- ==== Sys2Proof/Config.lean ====
section
/-! DEFINITION. What an implementation fixes (00_scope.md R9): the OPEN parameters `N`, `POS_MAX` and `GPIO_INIT`,
which `State.resetWith` takes as an argument, and the values the fixed reset state gives them.  `Open.Params`
(Machine/Open.lean) takes the type `RegId` and any function `GPIO_INIT` as well (entries 1, 2). -/

namespace Sys2Proof

/-- The parameters of 00_scope.md R9 and R64 that the spec leaves OPEN. -/
structure Params where
  /-- `N`, the number of motor slots; legal from 1 to 16. -/
  slotCount : Nat
  /-- `POS_MAX`, the greatest legal desired position; legal from 0 to 255. -/
  posMax : Byte
  /-- `GPIO_INIT`, the GPIO register file when the block comes out of reset (entry 2): the registers that
  differ from `Config.unlistedByte`, in rising order. -/
  gpioInit : List Host.Cell
  /-- The RegIds at which the platform offers no existing plain-storage register (20_memory.md R51, R64; entry 9). -/
  notPlain : List RegId
  deriving DecidableEq, Repr

namespace Config

/-- The greatest legal pool capacity, set by the 4-bit handle field (00_scope.md R9, D21). -/
def maxSlotCount : Nat := 16

/-- What a GPIO register that nothing lists reads as.  DESIGN CHOICE, unsafe, entry 2: the spec gives no
reset contents of the GPIO register file. -/
def unlistedByte : Byte := 0x00#8

/-- The parameters of the fixed reset state: the spec's own defaults for `N` and `POS_MAX` (00_scope.md R9, entry 3),
no listed register (entry 2), and a platform on which every RegId is plain storage (entry 9). -/
def defaults : Params :=
  { slotCount := 2, posMax := 199#8, gpioInit := [], notPlain := [] }

end Config

end Sys2Proof
end

