-- ==== Sys2Proof/Syntax.lean ====
section
/-! DEFINITION. The commands of the block, one constructor per row of the opcode table (30_encoding.md R83), and
the data they carry. -/

namespace Sys2Proof

/-- The microstep resolution of a slot (10_state.md R25; 30_encoding.md R88). -/
inductive StepSize where
  | full | half | quarter | eighth | sixteenth
  deriving DecidableEq, Repr

/-- The direction of a slot (10_state.md R27; 30_encoding.md R90). -/
inductive Direction where
  | forward | backward
  deriving DecidableEq, Repr

/-- The six line roles (00_scope.md R6). -/
inductive LineRole where
  | dir | enable | step | ms1 | ms2 | ms3
  deriving DecidableEq, Repr

/-- One physical output line: its data register, its data-direction register and its mask (00_scope.md R7). -/
structure PinBinding where
  port : RegId
  ddr  : RegId
  mask : Byte
  deriving DecidableEq, Repr

/-- Six PinBindings, one per line role: the configuration record `cfg` (30_encoding.md R95) and the bindings
of a slot (10_state.md R23). -/
structure Bindings where
  dir    : PinBinding
  enable : PinBinding
  step   : PinBinding
  ms1    : PinBinding
  ms2    : PinBinding
  ms3    : PinBinding
  deriving DecidableEq, Repr

/-- A PinBinding with every component 0. -/
def PinBinding.zero : PinBinding := { port := 0, ddr := 0, mask := 0#8 }

/-- Six PinBindings with every component 0. -/
def Bindings.zero : Bindings :=
  { dir := PinBinding.zero, enable := PinBinding.zero, step := PinBinding.zero,
    ms1 := PinBinding.zero, ms2 := PinBinding.zero, ms3 := PinBinding.zero }

/-- `bind[L]` (00_scope.md R10). -/
def Bindings.get (c : Bindings) : LineRole → PinBinding
  | .dir    => c.dir
  | .enable => c.enable
  | .step   => c.step
  | .ms1    => c.ms1
  | .ms2    => c.ms2
  | .ms3    => c.ms3

/-- A command as the decoder reads it (30_encoding.md R83, R94).  A handle is an index into the pool (R86); a
speed or a position is the operand byte, unsigned (R85). -/
inductive Instr where
  | construct (speed : Byte)
  | destruct (h : Nat)
  | setspeed (h : Nat) (speed : Byte)
  | getspeed (h : Nat)
  | setstep (h : Nat) (size : StepSize)
  | getstep (h : Nat)
  | setpos (h : Nat) (pos : Byte)
  | getpos (h : Nat)
  | setdir (h : Nat) (d : Direction)
  | getdir (h : Nat)
  | step (h : Nat)
  deriving DecidableEq, Repr

/-- The handle a command carries; CONSTRUCT carries none (30_encoding.md R83). -/
def Instr.handle? : Instr → Option Nat
  | .construct _  => none
  | .destruct h   => some h
  | .setspeed h _ => some h
  | .getspeed h   => some h
  | .setstep h _  => some h
  | .getstep h    => some h
  | .setpos h _   => some h
  | .getpos h     => some h
  | .setdir h _   => some h
  | .getdir h     => some h
  | .step h       => some h

end Sys2Proof
end

