-- ==== Sys2Proof/Machine/State.lean ====
section
/-! DEFINITION. The state of the machine, why a step can stop, and the state after reset (10_state.md; 70_reset_and_hazards.md
R190). -/

namespace Sys2Proof.Machine

/-- The status bit of a slot (10_state.md R22). -/
inductive Status where
  | inactive | active
  deriving DecidableEq, Repr

/-- One entry of the pool (10_state.md R21 to R27). -/
structure Slot where
  status     : Status
  bind       : Bindings
  speed      : Byte
  stepSize   : StepSize
  desiredPos : Byte
  dir        : Direction
  deriving DecidableEq, Repr

/-- The GPIO register file (10_state.md R31): register and byte pairs, registers strictly rising, none listed with
the byte an unlisted register reads as (`Memory.wf`). -/
abbrev Memory := List Host.Cell

/-- What the outside world does at a command boundary (10_state.md R20, R38; 70_reset_and_hazards.md R191). -/
inductive Input where
  /-- The host issues a command word and presents the configuration input with it (30_encoding.md R80, R95). -/
  | command (word : Word) (cfg : Bindings)
  /-- An external writer writes a GPIO register (10_state.md R20). -/
  | external (reg : RegId) (value : Byte)
  /-- Reset, between two commands (70_reset_and_hazards.md R191). -/
  | reset
  deriving DecidableEq, Repr

/-- The state: the slots and the GPIO register file, the parameters the step reads, and the model's own lists of
inputs and responses. -/
structure State where
  /-- The pool; `N` is its length (10_state.md R21). -/
  slots : List Slot
  /-- The parameter `POS_MAX` (00_scope.md R9); no step changes it. -/
  posMax : Byte
  /-- The GPIO register file `G` (10_state.md R31). -/
  gpio : Memory
  /-- The RegIds that are not existing plain-storage registers (20_memory.md R51; entry 9); no step changes it. -/
  notPlain : List RegId
  /-- The configuration input, as presented with the current command word (30_encoding.md R95; entry 7). -/
  cfgIn : Bindings
  /-- What the outside world does next, oldest first (entry 5). -/
  inputs : List Input
  /-- The response words returned so far, oldest first (70_reset_and_hazards.md R204; entry 10). -/
  responses : List Word
  deriving DecidableEq, Repr

/-- No command has a fault outcome (60_exceptions.md R160), so there is no fault (entry 19). -/
inductive Fault where
  deriving DecidableEq, Repr

/-- Why the model gives a command no next state. -/
inductive Refusal where
  /-- Raised by `exec` for an instruction with no meaning yet; no arm does.  Safe. -/
  | notModelled (mnemonic : String)
  /-- Raised by CONSTRUCT for a configuration that names a register which is absent or is not plain storage
  (20_memory.md R51, U9; entry 9).  Safe: the model stops where some platform would do something unspecified. -/
  | bindingNotPlain
  deriving DecidableEq, Repr

/-- A slot after reset: `Inactive` is the spec's (70_reset_and_hazards.md R190); every other field is unspecified
there, and its value here is a DESIGN CHOICE, unsafe, entry 4. -/
def Slot.reset : Slot :=
  { status := .inactive, bind := Bindings.zero, speed := 0#8, stepSize := .full, desiredPos := 0#8, dir := .forward }

/-- The state after reset for given parameters (00_scope.md R9; 70_reset_and_hazards.md R190). -/
def State.resetWith (p : Params) : State :=
  { slots := List.replicate p.slotCount Slot.reset, posMax := p.posMax, gpio := p.gpioInit, notPlain := p.notPlain,
    cfgIn := Bindings.zero, inputs := [], responses := [] }

/-- The state after reset for the default parameters. -/
def State.reset : State := State.resetWith Config.defaults

end Sys2Proof.Machine
end

