-- ==== Sys2Proof/Machine/Flags.lean ====
section
/-! DEFINITION. The outcome of a command.  The block has no condition flags and no status register (10_state.md R30): a
command's outcome is the status field of its own response word (30_encoding.md R81, R82), and nothing of it is kept. -/

namespace Sys2Proof.Machine

/-- The result codes (30_encoding.md R82). -/
inductive ResultCode where
  | ok | poolExhausted | handleInvalid | positionInvalid | illegalCommand
  deriving DecidableEq, Repr

/-- The value of a result code; 5, 6 and 7 are never produced (30_encoding.md R82). -/
def ResultCode.code : ResultCode → BitVec 3
  | .ok              => 0#3
  | .poolExhausted   => 1#3
  | .handleInvalid   => 2#3
  | .positionInvalid => 3#3
  | .illegalCommand  => 4#3

/-- The response word `{0b00000, status, data}` (30_encoding.md R81). -/
def responseWord (c : ResultCode) (data : Byte) : Word := 0#5 ++ c.code ++ data

/-- `respond(status, data)`: the command returns its one response word (00_scope.md R10; 30_encoding.md R81). -/
def State.respond (s : State) (c : ResultCode) (data : Byte) : State :=
  { s with responses := s.responses ++ [responseWord c data] }

/-- `raise E` is `respond(E, 0)`: there is no trap (00_scope.md R10; 60_exceptions.md R160). -/
def State.raise (s : State) (c : ResultCode) : State := s.respond c 0#8

end Sys2Proof.Machine
end

