-- ==== Sys2Proof/WellFormed.lean ====
section
/-! DEFINITION. When a command has an encoding: its handle fits the 4-bit handle field (30_encoding.md R80, R86).
Every other operand's type holds exactly the values its field admits (R85, R87, R89). -/

namespace Sys2Proof

/-- The handle fits `cmd[11:8]` (30_encoding.md R80).  A handle of `N` or more is well formed: it fails at
execution, not at decoding (R84). -/
def Instr.wellFormed (i : Instr) : Bool :=
  match i.handle? with
  | none   => true
  | some h => decide (h < 16)

end Sys2Proof
end

