-- ==== Sys2Proof/Decode.lean ====
section
/-! DEFINITION. The decoder of a command word (30_encoding.md R80, R83, R94), total and rejecting by name, the
encoder written from the same table, and the listing form of a command (R96). -/

namespace Sys2Proof

/-- Why a word spells no command (30_encoding.md R84).  All of them execute alike (60_exceptions.md R164); the
names are the model's (DESIGN CHOICE, safe, entry 8). -/
inductive IllegalWord where
  /-- `op` is 0x0 or 0xC to 0xF. -/
  | reservedOpcode
  /-- CONSTRUCT with a nonzero `h`. -/
  | handleNotZero
  /-- An operand bit marked "must be 0" is not 0. -/
  | operandNotZero
  /-- SETSTEP with `imm8[7:3] = 0` and a step code of 5, 6 or 7. -/
  | reservedStepCode
  deriving DecidableEq, Repr

/-- The step-size codes (30_encoding.md R88). -/
def StepSize.code : StepSize → Nat
  | .full      => 0
  | .half      => 1
  | .quarter   => 2
  | .eighth    => 3
  | .sixteenth => 4

/-- The step size of a code 0..4; codes 5 to 7 select none (30_encoding.md R87, R88). -/
def StepSize.ofCode : Nat → Option StepSize
  | 0 => some .full
  | 1 => some .half
  | 2 => some .quarter
  | 3 => some .eighth
  | 4 => some .sixteenth
  | _ => none

/-- The direction codes (30_encoding.md R90). -/
def Direction.code : Direction → Nat
  | .forward  => 0
  | .backward => 1

/-- The direction of the bit `imm8[0]` (30_encoding.md R89, R90). -/
def Direction.ofBit (b : Bool) : Direction := if b then .backward else .forward

/-- `cmd[15:12]` (30_encoding.md R80). -/
def opField (w : Word) : BitVec 4 := w.extractLsb' 12 4

/-- `cmd[11:8]` (30_encoding.md R80, R86). -/
def handleField (w : Word) : BitVec 4 := w.extractLsb' 8 4

/-- `cmd[7:0]` (30_encoding.md R80). -/
def imm8Field (w : Word) : Byte := w.extractLsb' 0 8

/-- A command whose `imm8` must be 0 (30_encoding.md R83, R84). -/
def decodeBare (imm8 : Byte) (i : Instr) : Except IllegalWord Instr :=
  if imm8 = 0#8 then .ok i else .error .operandNotZero

/-- CONSTRUCT, whose `h` must be 0 (30_encoding.md R83). -/
def decodeConstruct (h : BitVec 4) (imm8 : Byte) : Except IllegalWord Instr :=
  if h = 0#4 then .ok (.construct imm8) else .error .handleNotZero

/-- SETSTEP: `imm8[7:3]` is 0 and `imm8[2:0]` is a step code (30_encoding.md R87). -/
def decodeSetstep (h : Nat) (imm8 : Byte) : Except IllegalWord Instr :=
  if imm8.extractLsb' 3 5 = 0#5 then
    match StepSize.ofCode (imm8.extractLsb' 0 3).toNat with
    | some size => .ok (.setstep h size)
    | none      => .error .reservedStepCode
  else .error .operandNotZero

/-- SETDIR: `imm8[7:1]` is 0 and `imm8[0]` is the dir code (30_encoding.md R89). -/
def decodeSetdir (h : Nat) (imm8 : Byte) : Except IllegalWord Instr :=
  if imm8.extractLsb' 1 7 = 0#7 then .ok (.setdir h (Direction.ofBit (imm8.getLsbD 0)))
  else .error .operandNotZero

/-- Decoding by the opcode map, on the three fields (30_encoding.md R83, R94). -/
def decodeFields (op : Nat) (h : BitVec 4) (imm8 : Byte) : Except IllegalWord Instr :=
  match op with
  | 0x1 => decodeConstruct h imm8
  | 0x2 => decodeBare imm8 (.destruct h.toNat)
  | 0x3 => .ok (.setspeed h.toNat imm8)
  | 0x4 => decodeBare imm8 (.getspeed h.toNat)
  | 0x5 => decodeSetstep h.toNat imm8
  | 0x6 => decodeBare imm8 (.getstep h.toNat)
  | 0x7 => .ok (.setpos h.toNat imm8)
  | 0x8 => decodeBare imm8 (.getpos h.toNat)
  | 0x9 => decodeSetdir h.toNat imm8
  | 0xA => decodeBare imm8 (.getdir h.toNat)
  | 0xB => decodeBare imm8 (.step h.toNat)
  | _   => .error .reservedOpcode

/-- Decoding of a command word: exactly one command, or the reason it spells none (30_encoding.md R94). -/
def decode (w : Word) : Except IllegalWord Instr :=
  decodeFields (opField w).toNat (handleField w) (imm8Field w)

/-- The command word of three fields (30_encoding.md R80). -/
def commandWord (op h : BitVec 4) (imm8 : Byte) : Word := op ++ h ++ imm8

/-- The opcode of a command (30_encoding.md R83). -/
def Instr.opcode : Instr → BitVec 4
  | .construct _  => 0x1#4
  | .destruct _   => 0x2#4
  | .setspeed _ _ => 0x3#4
  | .getspeed _   => 0x4#4
  | .setstep _ _  => 0x5#4
  | .getstep _    => 0x6#4
  | .setpos _ _   => 0x7#4
  | .getpos _     => 0x8#4
  | .setdir _ _   => 0x9#4
  | .getdir _     => 0xA#4
  | .step _       => 0xB#4

/-- The operand byte of a command: speed, position, step code, dir code, or 0 (30_encoding.md R80, R83). -/
def Instr.operand : Instr → Byte
  | .construct speed  => speed
  | .setspeed _ speed => speed
  | .setstep _ size   => BitVec.ofNat 8 size.code
  | .setpos _ pos     => pos
  | .setdir _ d       => BitVec.ofNat 8 d.code
  | .destruct _ => 0#8
  | .getspeed _ => 0#8
  | .getstep _  => 0#8
  | .getpos _   => 0#8
  | .getdir _   => 0#8
  | .step _     => 0#8

/-- The word of a well-formed command (30_encoding.md R80, R83). -/
def encode (i : Instr) : Word :=
  commandWord i.opcode (BitVec.ofNat 4 (i.handle?.getD 0)) i.operand

/-- The command word of an opcode-table word: its low `nbits` bits, every bit above them 0. -/
def tableWord (nbits w : Nat) : Word := BitVec.ofNat 16 (w % Nat.pow 2 nbits)

/-- The command the decoder reads from an opcode-table word; none where it refuses. -/
def decodeTableWord (nbits w : Nat) : Option Instr :=
  match decode (tableWord nbits w) with
  | .ok i    => some i
  | .error _ => none

/-- The step-size names of a listing (30_encoding.md R96). -/
def StepSize.listing : StepSize → String
  | .full      => "FULL"
  | .half      => "HALF"
  | .quarter   => "QUARTER"
  | .eighth    => "EIGHTH"
  | .sixteenth => "SIXTEENTH"

/-- The direction names of a listing (30_encoding.md R96). -/
def Direction.listing : Direction → String
  | .forward  => "FORWARD"
  | .backward => "BACKWARD"

/-- The mnemonic of a command (00_scope.md R2; 30_encoding.md R83). -/
def Instr.mnemonic : Instr → String
  | .construct _  => "CONSTRUCT"
  | .destruct _   => "DESTRUCT"
  | .setspeed _ _ => "SETSPEED"
  | .getspeed _   => "GETSPEED"
  | .setstep _ _  => "SETSTEP"
  | .getstep _    => "GETSTEP"
  | .setpos _ _   => "SETPOS"
  | .getpos _     => "GETPOS"
  | .setdir _ _   => "SETDIR"
  | .getdir _     => "GETDIR"
  | .step _       => "STEP"

/-- The operands of a command in listing order, numbers in decimal (30_encoding.md R96). -/
def Instr.listedOperands : Instr → List String
  | .construct speed  => [Nat.repr speed.toNat]
  | .destruct h       => [Nat.repr h]
  | .setspeed h speed => [Nat.repr h, Nat.repr speed.toNat]
  | .getspeed h       => [Nat.repr h]
  | .setstep h size   => [Nat.repr h, size.listing]
  | .getstep h        => [Nat.repr h]
  | .setpos h pos     => [Nat.repr h, Nat.repr pos.toNat]
  | .getpos h         => [Nat.repr h]
  | .setdir h d       => [Nat.repr h, d.listing]
  | .getdir h         => [Nat.repr h]
  | .step h           => [Nat.repr h]

/-- One line of a listing: the mnemonic, then its operands separated by commas (30_encoding.md R96).  It has no
semantics (D23); of the two number forms R96 allows, the model writes the decimal one (DESIGN CHOICE, safe, entry 18). -/
def Instr.listing (i : Instr) : String :=
  i.mnemonic ++ " " ++ String.intercalate ", " i.listedOperands

end Sys2Proof
end

