-- ==== Sys2Proof/Machine/Operands.lean ====
section
/-! DEFINITION. Operands and the encoder: the handle check, and the line values of a step size and of a direction. -/

namespace Sys2Proof.Machine

/-- `resolve(h)`: the slot a handle names, if the handle is in range and the slot is Active
(41_motor_control.md R120; 30_encoding.md R86). -/
def State.resolve (s : State) (h : Nat) : Option Slot :=
  match s.slots[h]? with
  | some sl => if sl.status = .active then some sl else none
  | none    => none

/-- The least index of an Inactive slot, by an ascending scan (40_pool.md R110). -/
def leastInactive : List Slot → Option Nat
  | []      => none
  | sl :: t => if sl.status = .inactive then some 0 else (leastInactive t).map (· + 1)

/-- The values of the three microstep lines. -/
structure MsLines where
  ms1 : Bool
  ms2 : Bool
  ms3 : Bool
  deriving DecidableEq, Repr

/-- `enc_ms`: the microstep table (30_encoding.md R91). -/
def encMs : StepSize → MsLines
  | .full      => { ms1 := false, ms2 := false, ms3 := false }
  | .half      => { ms1 := true,  ms2 := false, ms3 := false }
  | .quarter   => { ms1 := false, ms2 := true,  ms3 := false }
  | .eighth    => { ms1 := true,  ms2 := true,  ms3 := false }
  | .sixteenth => { ms1 := true,  ms2 := true,  ms3 := true }

/-- `enc_dir`: the value of the DIR line (30_encoding.md R93). -/
def encDir : Direction → Bool
  | .forward  => false
  | .backward => true

/-- The line roles in the order CONSTRUCT initialises them (00_scope.md R6; 40_pool.md R111). -/
def roleOrder : List LineRole := [.dir, .enable, .step, .ms1, .ms2, .ms3]

/-- Every register the configuration names is an existing plain-storage register (20_memory.md R51; entry 9). -/
def bindingsPlain (notPlain : List RegId) (c : Bindings) : Bool :=
  roleOrder.all fun L =>
    decide ((c.get L).port ∉ notPlain) && decide ((c.get L).ddr ∉ notPlain)

/-- A byte operand of a response: a number zero-extended, as a handle, a step code or a dir code is
(30_encoding.md R81). -/
def zext8 (n : Nat) : Byte := BitVec.ofNat 8 n

end Sys2Proof.Machine
end

