-- ==== Sys2Proof/Machine/Ops.lean ====
section
/-! DEFINITION. The named operations: the GPIO register file, the sequencer's read-modify-write primitives
(20_memory.md), the slot register file, and what a step does besides running a command. -/

namespace Sys2Proof.Machine

/-- What a GPIO register that nothing lists reads as (20_memory.md R51; entry 2). -/
def Memory.unlisted (_r : Nat) : Byte := Config.unlistedByte

/-- `G[r]`: the value last written, with no side effect (20_memory.md R51). -/
def Memory.read : Memory → Nat → Byte
  | [],          r => Memory.unlisted r
  | (a, v) :: t, r => if a = r then v else Memory.read t r

/-- The canonical list that says register `r` holds `v` and otherwise what `t` says, where `t` lists nothing up to `r`. -/
def Memory.cons (r : Nat) (v : Byte) (t : Memory) : Memory :=
  if v = Memory.unlisted r then t else (r, v) :: t

/-- `G[r] <- v`: stores `v` and has no other effect (20_memory.md R51); the canonical form is kept. -/
def Memory.write : Memory → Nat → Byte → Memory
  | [],          r, v => Memory.cons r v []
  | (a, w) :: t, r, v =>
    if a < r then (a, w) :: Memory.write t r v
    else if a = r then Memory.cons r v t
    else Memory.cons r v ((a, w) :: t)

/-- Every listed register is at least `lo`, strictly above the one before it, and differs from what an unlisted
register reads as. -/
def Memory.wfFrom : Nat → Memory → Bool
  | _,  []          => true
  | lo, (a, v) :: t => decide (lo ≤ a) && decide (v ≠ Memory.unlisted a) && Memory.wfFrom (a + 1) t

/-- The canonical form of a register file. -/
def Memory.wf (g : Memory) : Bool := Memory.wfFrom 0 g

/-- `PinSet(b)` (20_memory.md R53). -/
def pinSet (b : PinBinding) (g : Memory) : Memory := g.write b.port (g.read b.port ||| b.mask)

/-- `PinClear(b)` (20_memory.md R53). -/
def pinClear (b : PinBinding) (g : Memory) : Memory := g.write b.port (g.read b.port &&& ~~~b.mask)

/-- `PinWrite(b, v)` (20_memory.md R54). -/
def pinWrite (b : PinBinding) (v : Bool) (g : Memory) : Memory :=
  if v then pinSet b g else pinClear b g

/-- `DdrOutput(b)` (20_memory.md R55). -/
def ddrOutput (b : PinBinding) (g : Memory) : Memory := g.write b.ddr (g.read b.ddr ||| b.mask)

/-- One line of the initialisation sequence: data register bit low first, then mark as output (40_pool.md R111). -/
def initLine (b : PinBinding) (g : Memory) : Memory := ddrOutput b (pinClear b g)

/-- The twelve accesses of CONSTRUCT, line by line in role order (40_pool.md R111). -/
def initLines (c : Bindings) (g : Memory) : Memory :=
  roleOrder.foldl (fun g L => initLine (c.get L) g) g

/-- The three writes of SETSTEP, in the order MS1, MS2, MS3 (41_motor_control.md R123). -/
def msWrite (c : Bindings) (m : MsLines) (g : Memory) : Memory :=
  pinWrite c.ms3 m.ms3 (pinWrite c.ms2 m.ms2 (pinWrite c.ms1 m.ms1 g))

/-- The level of the line of `b` at bit `k`, for an observer of the pins (10_state.md R32). -/
inductive Level where
  /-- An output: driven at the data register's bit. -/
  | drive (bit : Bool)
  /-- An input: not driven by this block, and nothing is known of its level (U4; entry 14). -/
  | undriven
  deriving DecidableEq, Repr

/-- `level(b, k)`, for `b.mask[k] = 1` (10_state.md R32). -/
def level (g : Memory) (b : PinBinding) (k : Nat) : Level :=
  if (g.read b.ddr).getLsbD k then .drive ((g.read b.port).getLsbD k) else .undriven

/-- `slot[h] <- sl`; nothing where there is no slot `h`. -/
def State.setSlot (s : State) (h : Nat) (sl : Slot) : State := { s with slots := s.slots.set h sl }

/-- The GPIO register file replaced as a whole. -/
def State.setGpio (s : State) (g : Memory) : State := { s with gpio := g }

/-- A slot as CONSTRUCT leaves it (40_pool.md R110, R112). -/
def Slot.constructed (c : Bindings) (speed : Byte) : Slot :=
  { status := .active, bind := c, speed := speed, stepSize := .full, desiredPos := 0#8, dir := .forward }

/-- The template of the nine commands that check their handle before anything else (41_motor_control.md R120): on
failure `respond(HandleInvalid, 0)` with no mutation, otherwise go on with the slot. -/
def State.onActive (s : State) (h : Nat) (k : Slot → State) : State :=
  match s.resolve h with
  | some sl => k sl
  | none    => s.raise .handleInvalid

/-- An illegal word: no state changes, no register is read, `cfg` is ignored, and the response is 0x0400
(60_exceptions.md R164). -/
def State.illegalCommand (s : State) : State := s.raise .illegalCommand

/-- The write of an external writer, to any register and of any value (10_state.md R20). -/
def State.externalWrite (s : State) (r : RegId) (v : Byte) : State := s.setGpio (s.gpio.write r v)

/-- Reset between two commands: every slot as after reset, the GPIO register file untouched
(70_reset_and_hazards.md R190, R191; entry 11). -/
def State.resetBlock (s : State) : State := { s with slots := List.replicate s.slots.length Slot.reset }

/-- The block samples a command: the word leaves the input list, and its `cfg` stands at the configuration input
(30_encoding.md R80, R95). -/
def State.sample (s : State) (cfg : Bindings) (rest : List Input) : State :=
  { s with cfgIn := cfg, inputs := rest }

/-- The input list with its head taken off. -/
def State.withInputs (s : State) (rest : List Input) : State := { s with inputs := rest }

end Sys2Proof.Machine
end

