-- ==== Sys2Proof/Machine/Motor.lean ====
section
/-! DEFINITION. The motor control commands, SETSPEED to STEP (41_motor_control.md). -/

namespace Sys2Proof.Machine

/-- SETSPEED (41_motor_control.md R121). -/
def execSetspeed (h : Nat) (speed : Byte) (s : State) : Host.Outcome State Fault Refusal :=
  .next (s.onActive h fun sl => (s.setSlot h { sl with speed := speed }).respond .ok 0#8)

/-- GETSPEED (41_motor_control.md R122). -/
def execGetspeed (h : Nat) (s : State) : Host.Outcome State Fault Refusal :=
  .next (s.onActive h fun sl => s.respond .ok sl.speed)

/-- SETSTEP (41_motor_control.md R123): the three lines, then the field. -/
def execSetstep (h : Nat) (size : StepSize) (s : State) : Host.Outcome State Fault Refusal :=
  .next (s.onActive h fun sl =>
    ((s.setGpio (msWrite sl.bind (encMs size) s.gpio)).setSlot h { sl with stepSize := size }).respond .ok 0#8)

/-- GETSTEP (41_motor_control.md R124): the stored code, not the lines. -/
def execGetstep (h : Nat) (s : State) : Host.Outcome State Fault Refusal :=
  .next (s.onActive h fun sl => s.respond .ok (zext8 sl.stepSize.code))

/-- SETPOS (41_motor_control.md R125): the handle first, then the range. -/
def execSetpos (h : Nat) (pos : Byte) (s : State) : Host.Outcome State Fault Refusal :=
  .next (s.onActive h fun sl =>
    if s.posMax.toNat < pos.toNat then s.raise .positionInvalid
    else (s.setSlot h { sl with desiredPos := pos }).respond .ok 0#8)

/-- GETPOS (41_motor_control.md R126). -/
def execGetpos (h : Nat) (s : State) : Host.Outcome State Fault Refusal :=
  .next (s.onActive h fun sl => s.respond .ok sl.desiredPos)

/-- SETDIR (41_motor_control.md R127): the field, then the line. -/
def execSetdir (h : Nat) (d : Direction) (s : State) : Host.Outcome State Fault Refusal :=
  .next (s.onActive h fun sl =>
    ((s.setSlot h { sl with dir := d }).setGpio (pinWrite sl.bind.dir (encDir d) s.gpio)).respond .ok 0#8)

/-- GETDIR (41_motor_control.md R128): the stored code, not the line. -/
def execGetdir (h : Nat) (s : State) : Host.Outcome State Fault Refusal :=
  .next (s.onActive h fun sl => s.respond .ok (zext8 sl.dir.code))

/-- STEP (41_motor_control.md R129): drives the STEP line high, never low. -/
def execStep (h : Nat) (s : State) : Host.Outcome State Fault Refusal :=
  .next (s.onActive h fun sl => (s.setGpio (pinSet sl.bind.step s.gpio)).respond .ok 0#8)

end Sys2Proof.Machine
end

