-- ==== Sys2Proof/Machine/Pool.lean ====
section
/-! DEFINITION. The pool commands, CONSTRUCT and DESTRUCT (40_pool.md). -/

namespace Sys2Proof.Machine

/-- CONSTRUCT (40_pool.md R110 to R112).  A configuration that names a register which is not plain storage is
refused where the command would use it (20_memory.md R51, U9; entry 9). -/
def execConstruct (speed : Byte) (s : State) : Host.Outcome State Fault Refusal :=
  match leastInactive s.slots with
  | none   => .next (s.raise .poolExhausted)
  | some i =>
    if bindingsPlain s.notPlain s.cfgIn then
      .next (((s.setSlot i (Slot.constructed s.cfgIn speed)).setGpio (initLines s.cfgIn s.gpio)).respond .ok (zext8 i))
    else .refused .bindingNotPlain

/-- DESTRUCT (40_pool.md R113; D9): Ok whether the slot was Active, Inactive or out of range. -/
def execDestruct (h : Nat) (s : State) : Host.Outcome State Fault Refusal :=
  match s.slots[h]? with
  | some sl => .next ((s.setSlot h { sl with status := .inactive }).respond .ok 0#8)
  | none    => .next (s.respond .ok 0#8)

end Sys2Proof.Machine
end

