-- ==== Sys2Proof/Machine/Dispatch.lean ====
section
/-! DEFINITION. One arm per command (30_encoding.md R83), each one call of the command's meaning. -/

namespace Sys2Proof.Machine

/-- A decoded command runs to completion as one step (20_memory.md R60). -/
def exec (i : Instr) (s : State) : Host.Outcome State Fault Refusal :=
  match i with
  | .construct speed => Sys2Proof.Machine.execConstruct speed s
  | .destruct h => Sys2Proof.Machine.execDestruct h s
  | .setspeed h speed => Sys2Proof.Machine.execSetspeed h speed s
  | .getspeed h => Sys2Proof.Machine.execGetspeed h s
  | .setstep h size => Sys2Proof.Machine.execSetstep h size s
  | .getstep h => Sys2Proof.Machine.execGetstep h s
  | .setpos h pos => Sys2Proof.Machine.execSetpos h pos s
  | .getpos h => Sys2Proof.Machine.execGetpos h s
  | .setdir h d => Sys2Proof.Machine.execSetdir h d s
  | .getdir h => Sys2Proof.Machine.execGetdir h s
  | .step h => Sys2Proof.Machine.execStep h s

end Sys2Proof.Machine
end

