-- ==== Sys2Proof/Machine/Step.lean ====
section
/-! DEFINITION. One step of the machine: what happens at one command boundary (10_state.md R20; 20_memory.md R60, R62). -/

namespace Sys2Proof.Machine

/-- One step: the oldest input.  A legal word runs its command, an illegal word is answered as such
(60_exceptions.md R164), an external write and a reset take effect between commands, and with no input the block
waits (70_reset_and_hazards.md R190; entry 6). -/
def step (s : State) : Host.Outcome State Fault Refusal :=
  match s.inputs with
  | []                       => .next s
  | .command w cfg :: rest   =>
    match decode w with
    | .ok i    => exec i (s.sample cfg rest)
    | .error _ => .next (s.sample cfg rest).illegalCommand
  | .external r v :: rest    => .next ((s.withInputs rest).externalWrite r v)
  | .reset :: rest           => .next (s.withInputs rest).resetBlock

/-- `s` with an opcode-table word as the command that the host issues next (entry 5): the block fetches nothing
(10_state.md R29), so the word is put at the head of the inputs, with the configuration input as it stands. -/
def State.withFetchWord (s : State) (nbits w : Nat) : State :=
  s.withInputs (.command (tableWord nbits w) s.cfgIn :: s.inputs)

end Sys2Proof.Machine
end

