-- ==== Sys2Proof/Machine/Open.lean ====
section
/-! DEFINITION. The block with every OPEN parameter of 00_scope.md R9 an argument: ANY type `R` of register identifiers with
decidable equality, ANY function `GPIO_INIT : R → u8`, any `N` and `POS_MAX`, and any values of the slot fields that reset
leaves unspecified (70_reset_and_hazards.md R190).  The register file is a function here, as 10_state.md R31 says, where
`State` lists the registers it knows.  `Params.number` and the `number` functions give every register a run names a RegId
of `State`; that the two machines then do the same is stated as obligations (entries 1 and 2). -/

namespace Sys2Proof.Open

open Sys2Proof.Machine (Status ResultCode Fault Refusal)

/-! ### The data -/

/-- A PinBinding over any type of register identifiers (00_scope.md R7). -/
structure Pin (R : Type) where
  port : R
  ddr  : R
  mask : Byte
  deriving DecidableEq, Repr

/-- `bind[L]`, one PinBinding per line role (30_encoding.md R95). -/
abbrev Wiring (R : Type) := LineRole → Pin R

/-- A slot (10_state.md R22 to R27). -/
structure Slot (R : Type) where
  status     : Status
  bind       : Wiring R
  speed      : Byte
  stepSize   : StepSize
  desiredPos : Byte
  dir        : Direction

/-- The parameters of 00_scope.md R9, what the platform offers (20_memory.md R51, R64), and the slot fields that reset
leaves unspecified (70_reset_and_hazards.md R190). -/
structure Params (R : Type) where
  /-- `N`. -/
  slotCount : Nat
  /-- `POS_MAX`. -/
  posMax : Byte
  /-- `GPIO_INIT`. -/
  gpioInit : R → Byte
  /-- The register exists and is plain storage. -/
  plain : R → Bool
  /-- What slot `i` holds when reset has made it Inactive. -/
  leftover : Nat → Slot R

/-- The slots, the GPIO register file `G` and the responses returned so far (70_reset_and_hazards.md R204). -/
structure Board (R : Type) where
  slots     : List (Slot R)
  gpio      : R → Byte
  responses : List Word

/-- What happens at a command boundary (10_state.md R20; 70_reset_and_hazards.md R191). -/
inductive Input (R : Type) where
  | command (word : Word) (cfg : Wiring R)
  | external (reg : R) (value : Byte)
  | reset

/-! ### The step -/

variable {R : Type}

/-- The slots that reset leaves, all Inactive (70_reset_and_hazards.md R190). -/
def Params.resetSlots (p : Params R) : List (Slot R) :=
  (List.range p.slotCount).map fun i => { p.leftover i with status := .inactive }

/-- The board after reset (70_reset_and_hazards.md R190). -/
def Params.reset (p : Params R) : Board R := { slots := p.resetSlots, gpio := p.gpioInit, responses := [] }

/-- `respond(status, data)` (00_scope.md R10). -/
def Board.respond (s : Board R) (c : ResultCode) (data : Byte) : Board R :=
  { s with responses := s.responses ++ [Machine.responseWord c data] }

/-- `slot[h] <- sl`. -/
def Board.setSlot (s : Board R) (h : Nat) (sl : Slot R) : Board R := { s with slots := s.slots.set h sl }

/-- `resolve(h)`, then go on with the slot (41_motor_control.md R120). -/
def Board.onActive (s : Board R) (h : Nat) (k : Slot R → Board R) : Board R :=
  match s.slots[h]? with
  | some sl => if sl.status = .active then k sl else s.respond .handleInvalid 0#8
  | none    => s.respond .handleInvalid 0#8

variable [DecidableEq R]

/-- `PinSet(b)` (20_memory.md R53). -/
def pinSet (b : Pin R) (g : R → Byte) : R → Byte := Function.update g b.port (g b.port ||| b.mask)

/-- `PinClear(b)` (20_memory.md R53). -/
def pinClear (b : Pin R) (g : R → Byte) : R → Byte := Function.update g b.port (g b.port &&& ~~~b.mask)

/-- `PinWrite(b, v)` (20_memory.md R54). -/
def pinWrite (b : Pin R) (v : Bool) (g : R → Byte) : R → Byte := if v then pinSet b g else pinClear b g

/-- `DdrOutput(b)` (20_memory.md R55). -/
def ddrOutput (b : Pin R) (g : R → Byte) : R → Byte := Function.update g b.ddr (g b.ddr ||| b.mask)

/-- The twelve accesses of CONSTRUCT (40_pool.md R111). -/
def initLines (c : Wiring R) (g : R → Byte) : R → Byte :=
  Machine.roleOrder.foldl (fun g L => ddrOutput (c L) (pinClear (c L) g)) g

/-- A command with its configuration input (40_pool.md R110, R113; 41_motor_control.md R121 to R129). -/
def exec (p : Params R) (cfg : Wiring R) (i : Instr) (s : Board R) : Host.Outcome (Board R) Fault Refusal :=
  match i with
  | .construct speed =>
    match s.slots.findIdx? (fun sl => sl.status = .inactive) with
    | none   => .next (s.respond .poolExhausted 0#8)
    | some j =>
      if Machine.roleOrder.all fun L => p.plain (cfg L).port && p.plain (cfg L).ddr then
        .next (Board.respond
          { s.setSlot j
              { status := .active, bind := cfg, speed := speed, stepSize := .full, desiredPos := 0#8, dir := .forward }
            with gpio := initLines cfg s.gpio } .ok (Machine.zext8 j))
      else .refused .bindingNotPlain
  | .destruct h =>
    match s.slots[h]? with
    | some sl => .next ((s.setSlot h { sl with status := .inactive }).respond .ok 0#8)
    | none    => .next (s.respond .ok 0#8)
  | .setspeed h v => .next (s.onActive h fun sl => (s.setSlot h { sl with speed := v }).respond .ok 0#8)
  | .getspeed h   => .next (s.onActive h fun sl => s.respond .ok sl.speed)
  | .setstep h z  => .next (s.onActive h fun sl =>
      Board.respond
        { s.setSlot h { sl with stepSize := z } with
          gpio := pinWrite (sl.bind .ms3) (Machine.encMs z).ms3
            (pinWrite (sl.bind .ms2) (Machine.encMs z).ms2 (pinWrite (sl.bind .ms1) (Machine.encMs z).ms1 s.gpio)) }
        .ok 0#8)
  | .getstep h    => .next (s.onActive h fun sl => s.respond .ok (Machine.zext8 sl.stepSize.code))
  | .setpos h v   => .next (s.onActive h fun sl =>
      if p.posMax.toNat < v.toNat then s.respond .positionInvalid 0#8
      else (s.setSlot h { sl with desiredPos := v }).respond .ok 0#8)
  | .getpos h     => .next (s.onActive h fun sl => s.respond .ok sl.desiredPos)
  | .setdir h d   => .next (s.onActive h fun sl =>
      Board.respond
        { s.setSlot h { sl with dir := d } with gpio := pinWrite (sl.bind .dir) (Machine.encDir d) s.gpio } .ok 0#8)
  | .getdir h     => .next (s.onActive h fun sl => s.respond .ok (Machine.zext8 sl.dir.code))
  | .step h       => .next (s.onActive h fun sl =>
      Board.respond { s with gpio := pinSet (sl.bind .step) s.gpio } .ok 0#8)

/-- What one input does (10_state.md R20; 60_exceptions.md R164; 70_reset_and_hazards.md R191). -/
def step (p : Params R) (x : Input R) (s : Board R) : Host.Outcome (Board R) Fault Refusal :=
  match x with
  | .command w cfg =>
    match decode w with
    | .ok i    => exec p cfg i s
    | .error _ => .next (s.respond .illegalCommand 0#8)
  | .external r v => .next { s with gpio := Function.update s.gpio r v }
  | .reset        => .next { s with slots := p.resetSlots }

/-- A run (70_reset_and_hazards.md R204). -/
def run (p : Params R) : List (Input R) → Board R → Host.Outcome (Board R) Fault Refusal
  | [], s      => .next s
  | x :: xs, s =>
    match step p x s with
    | .next s'   => run p xs s'
    | .fault e   => .fault e
    | .refused e => .refused e

/-! ### Numbering the registers -/

omit [DecidableEq R]

/-- The registers of a configuration. -/
def registersOf (c : Wiring R) : List R := Machine.roleOrder.flatMap fun L => [(c L).port, (c L).ddr]

/-- The registers an input names. -/
def Input.registers : Input R → List R
  | .command _ cfg => registersOf cfg
  | .external r _  => [r]
  | .reset         => []

/-- A PinBinding with its registers numbered. -/
def Pin.number (ρ : R → RegId) (b : Pin R) : PinBinding := { port := ρ b.port, ddr := ρ b.ddr, mask := b.mask }

/-- Six PinBindings with their registers numbered. -/
def numberWiring (ρ : R → RegId) (c : Wiring R) : Bindings where
  dir    := (c .dir).number ρ
  enable := (c .enable).number ρ
  step   := (c .step).number ρ
  ms1    := (c .ms1).number ρ
  ms2    := (c .ms2).number ρ
  ms3    := (c .ms3).number ρ

/-- A slot with its registers numbered. -/
def Slot.number (ρ : R → RegId) (sl : Slot R) : Machine.Slot where
  status     := sl.status
  bind       := numberWiring ρ sl.bind
  speed      := sl.speed
  stepSize   := sl.stepSize
  desiredPos := sl.desiredPos
  dir        := sl.dir

/-- An input with its registers numbered. -/
def Input.number (ρ : R → RegId) : Input R → Machine.Input
  | .command w cfg => .command w (numberWiring ρ cfg)
  | .external r v  => .external (ρ r) v
  | .reset         => .reset

/-- The parameters of `State` for the registers `rs`, numbered by `ρ`: their reset contents and which of them are not
plain storage. -/
def Params.number (p : Params R) (ρ : R → RegId) (rs : List R) : Sys2Proof.Params where
  slotCount := p.slotCount
  posMax    := p.posMax
  gpioInit  := rs.foldl (fun g r => Machine.Memory.write g (ρ r) (p.gpioInit r)) []
  notPlain  := (rs.filter fun r => !p.plain r).map ρ

end Sys2Proof.Open
end

