-- ==== Sys2Proof/Safety.lean ====
section
/-! DEFINITION. What counts as a well-formed state, a well-wired pool and a dutiful host, in the terms the statements use
(10_state.md R21 to R35; 70_reset_and_hazards.md R193, R199). -/

namespace Sys2Proof

open Machine in
/-- Legal parameters (00_scope.md R9): `1 <= N <= 16`, and `GPIO_INIT` in canonical form. -/
abbrev Params.Legal (p : Params) : Prop :=
  1 ≤ p.slotCount ∧ p.slotCount ≤ Config.maxSlotCount ∧ Memory.wf p.gpioInit = true

/-- The handle of the nine commands that check it before anything else; CONSTRUCT and DESTRUCT check none (41_motor_control.md R120). -/
def Instr.checkedHandle? : Instr → Option Nat
  | .construct _  => none
  | .destruct _   => none
  | .setspeed h _ => some h
  | .getspeed h   => some h
  | .setstep h _  => some h
  | .getstep h    => some h
  | .setpos h _   => some h
  | .getpos h     => some h
  | .setdir h _   => some h
  | .getdir h     => some h
  | .step h       => some h

end Sys2Proof

namespace Sys2Proof.Machine

/-! ### The machine invariant -/

/-- The pool has from 1 to 16 slots (00_scope.md R9; 10_state.md R21). -/
abbrev State.PoolSized (s : State) : Prop := 1 ≤ s.slots.length ∧ s.slots.length ≤ Config.maxSlotCount

/-- Every slot's target position is legal (10_state.md R26). -/
abbrev State.PositionsLegal (s : State) : Prop := ∀ sl ∈ s.slots, sl.desiredPos.toNat ≤ s.posMax.toNat

/-- The bindings of an Active slot name existing plain-storage registers (20_memory.md R51; 70_reset_and_hazards.md R193). -/
abbrev State.ActiveBindingsPlain (s : State) : Prop :=
  ∀ sl ∈ s.slots, sl.status = .active → bindingsPlain s.notPlain sl.bind = true

/-- What every step keeps. -/
abbrev State.Inv (s : State) : Prop :=
  s.PoolSized ∧ Memory.wf s.gpio = true ∧ s.PositionsLegal ∧ s.ActiveBindingsPlain

/-- The host keeps the register-validity duty for every configuration it will still present
(70_reset_and_hazards.md R193). -/
def Input.dutiful (notPlain : List RegId) : Input → Bool
  | .command _ cfg => bindingsPlain notPlain cfg
  | .external _ _  => true
  | .reset         => true

/-- Every input still to come keeps the duty. -/
abbrev State.HostDutiful (s : State) : Prop := ∀ x ∈ s.inputs, x.dutiful s.notPlain = true

/-- The input is a command. -/
def Input.isCommand : Input → Bool
  | .command _ _  => true
  | .external _ _ => false
  | .reset        => false

/-! ### Slots, handles and bits -/

/-- The handle names an Active slot, which is `sl` (41_motor_control.md R120). -/
abbrev State.Holds (s : State) (h : Nat) (sl : Slot) : Prop := s.slots[h]? = some sl ∧ sl.status = .active

/-- The handle is out of range or its slot is Inactive (41_motor_control.md R120). -/
abbrev State.Invalid (s : State) (h : Nat) : Prop := ∀ sl, s.slots[h]? = some sl → sl.status = .inactive

/-- Slot `i` is the lowest-numbered Inactive slot (40_pool.md R110). -/
abbrev State.Allocates (s : State) (i : Nat) : Prop :=
  (∃ sl, s.slots[i]? = some sl ∧ sl.status = .inactive) ∧
    ∀ j, j < i → ∃ sl, s.slots[j]? = some sl ∧ sl.status = .active

/-- Bit `k` of GPIO register `r`. -/
def bitOf (g : Memory) (r : RegId) (k : Nat) : Bool := (g.read r).getLsbD k

/-- The register and mask bits that one write names. -/
structure Area where
  reg  : RegId
  mask : Byte
  deriving DecidableEq, Repr

/-- Bit `k` of register `r` is one of the area's bits. -/
def Area.covers (a : Area) (r : RegId) (k : Nat) : Bool := decide (a.reg = r) && a.mask.getLsbD k

/-- The data-register bits of a line. -/
def portArea (b : PinBinding) : Area := { reg := b.port, mask := b.mask }

/-- The data-direction bits of a line. -/
def ddrArea (b : PinBinding) : Area := { reg := b.ddr, mask := b.mask }

/-- Two areas share no bit. -/
abbrev Area.Apart (a b : Area) : Prop := a.reg = b.reg → a.mask &&& b.mask = 0#8

/-- Everything around the slots, the GPIO registers and the responses is as before. -/
abbrev State.SameSurroundings (s t : State) : Prop :=
  t.posMax = s.posMax ∧ t.notPlain = s.notPlain ∧ t.cfgIn = s.cfgIn ∧ t.inputs = s.inputs

/-- `t` is `s` but for one more response. -/
def State.answered (s : State) (w : Word) : State := { s with responses := s.responses ++ [w] }

/-! ### Wiring and the levels of the lines -/

end Sys2Proof.Machine

namespace Sys2Proof

open Machine

/-- A well-formed configuration as far as the invariants need it (70_reset_and_hazards.md R199): the six data-register
areas share no bit with each other, nor with any data-direction area. -/
abbrev Bindings.SelfApart (c : Bindings) : Prop :=
  ∀ L ∈ roleOrder, ∀ M ∈ roleOrder,
    (L ≠ M → (portArea (c.get L)).Apart (portArea (c.get M))) ∧ (portArea (c.get L)).Apart (ddrArea (c.get M))

/-- The lines of two configurations do not interfere: no data-register area of one shares a bit with an area of the other. -/
abbrev Bindings.LinesApart (c d : Bindings) : Prop :=
  ∀ L ∈ roleOrder, ∀ M ∈ roleOrder,
    (portArea (c.get L)).Apart (portArea (d.get M)) ∧ (portArea (c.get L)).Apart (ddrArea (d.get M)) ∧
      (portArea (d.get M)).Apart (ddrArea (c.get L))

end Sys2Proof

namespace Sys2Proof.Machine

/-- The Active slots are wired apart, each within itself and from every other (70_reset_and_hazards.md R198, R199). -/
abbrev State.Wired (s : State) : Prop :=
  (∀ sl ∈ s.slots, sl.status = .active → sl.bind.SelfApart) ∧
    ∀ i j a b, i ≠ j → s.Holds i a → s.Holds j b → a.bind.LinesApart b.bind

/-- The value a line of an Active slot shows: the encoded bits on MS1 to MS3 and DIR (10_state.md R33, R34), low on
ENABLE (41_motor_control.md R130); the slot does not say what STEP shows. -/
def Slot.shows (sl : Slot) : LineRole → Option Bool
  | .dir    => some (encDir sl.dir)
  | .enable => some false
  | .step   => none
  | .ms1    => some (encMs sl.stepSize).ms1
  | .ms2    => some (encMs sl.stepSize).ms2
  | .ms3    => some (encMs sl.stepSize).ms3

/-- The six lines of a slot are driven, and all but STEP show the slot's fields. -/
abbrev Slot.LinesShown (g : Memory) (sl : Slot) : Prop :=
  ∀ L ∈ roleOrder, ∀ k, k < 8 → (sl.bind.get L).mask.getLsbD k = true →
    level g (sl.bind.get L) k ≠ .undriven ∧
      ∀ v ∈ sl.shows L, level g (sl.bind.get L) k = .drive v

/-- Every Active slot's lines are shown (10_state.md R33, R34). -/
abbrev State.PinsShown (s : State) : Prop := ∀ sl ∈ s.slots, sl.status = .active → sl.LinesShown s.gpio

/-- An input leaves the lines of the Active slots to the block (10_state.md R33; 70_reset_and_hazards.md R195, R198): an external write changes no
data-direction bit of theirs to input and no data-register bit but STEP's; a CONSTRUCT brings lines apart from
theirs. -/
def State.Undisturbed (s : State) : Input → Prop
  | .command w cfg => ∀ speed, decode w = .ok (.construct speed) →
      cfg.SelfApart ∧ ∀ sl ∈ s.slots, sl.status = .active → cfg.LinesApart sl.bind
  | .external r v => ∀ sl ∈ s.slots, sl.status = .active → ∀ L ∈ roleOrder,
      ((sl.bind.get L).ddr = r → (sl.bind.get L).mask &&& ~~~v = 0#8) ∧
        (L ≠ .step → (sl.bind.get L).port = r → (sl.bind.get L).mask &&& (v ^^^ s.gpio.read r) = 0#8)
  | .reset => True

/-! ### What the host can see -/

/-- Two slots the host cannot tell apart: both Active and equal, or both Inactive (10_state.md R35). -/
abbrev Slot.Alike (a b : Slot) : Prop := a.status = b.status ∧ (a.status = .active → a = b)

/-- Two states that differ at most in the fields of Inactive slots (10_state.md R35). -/
abbrev State.Alike (s t : State) : Prop :=
  List.Forall₂ Slot.Alike s.slots t.slots ∧ t = { s with slots := t.slots }

end Sys2Proof.Machine

namespace Sys2Proof.Open

/-! ### The block over any parameters, and its counterpart in `State` (00_scope.md R9; entries 1, 2) -/

variable {R : Type}

/-- `ρ` gives different registers of `rs` different RegIds. -/
def NumbersApart (ρ : R → RegId) (rs : List R) : Prop := ∀ a ∈ rs, ∀ b ∈ rs, ρ a = ρ b → a = b

/-- `m` holds what `g` holds in the registers `rs`, and every other register of `g` is as at reset. -/
structure FileMatches (p : Params R) (ρ : R → RegId) (rs : List R) (g : R → Byte) (m : Machine.Memory) : Prop where
  canonical : m.wf = true
  named     : ∀ r ∈ rs, m.read (ρ r) = g r
  unnamed   : ∀ r, r ∉ rs → g r = p.gpioInit r

/-- The same status and, while Active, the same fields, on registers of `rs`. -/
structure Slot.Matches (ρ : R → RegId) (rs : List R) (a : Slot R) (b : Machine.Slot) : Prop where
  status : b.status = a.status
  fields : a.status = .active → b = a.number ρ
  named  : a.status = .active → ∀ r ∈ registersOf a.bind, r ∈ rs

/-- `t` is the board `s` with the registers `rs` numbered by `ρ`. -/
structure Board.Matches (p : Params R) (ρ : R → RegId) (rs : List R) (s : Board R) (t : Machine.State) : Prop where
  slots     : List.Forall₂ (Slot.Matches ρ rs) s.slots t.slots
  slotCount : t.slots.length = p.slotCount
  posMax    : t.posMax = p.posMax
  file      : FileMatches p ρ rs s.gpio t.gpio
  notPlain  : ∀ r ∈ rs, (ρ r ∈ t.notPlain ↔ p.plain r = false)
  responses : t.responses = s.responses

/-- Both go on, to states that `P` relates, or both refuse for the same reason. -/
def SameOutcome (o : Host.Outcome (Board R) Machine.Fault Machine.Refusal)
    (o' : Host.Outcome Machine.State Machine.Fault Machine.Refusal) (P : Board R → Machine.State → Prop) : Prop :=
  (∃ s t, o = .next s ∧ o' = .next t ∧ P s t) ∨ ∃ e, o = .refused e ∧ o' = .refused e

end Sys2Proof.Open
end

