-- ==== Sys2Proof/Certificates/Slice0/Obligations.lean ====
section
/-! DEFINITION. The statements for the provers.  Each docstring names the rules of spec/ it formalises or rests on. -/

namespace Sys2Proof.Spec

open Sys2Proof.Machine

/-! ### Terms of the statements -/

/-- The command completes with a next state that `P` describes. -/
def Completes (i : Instr) (s : State) (P : State → Prop) : Prop := ∃ t, exec i s = .next t ∧ P t

/-- Slot `h` is now `sl`, and every other slot is as before. -/
def OnlySlot (s t : State) (h : Nat) (sl : Slot) : Prop :=
  t.slots.length = s.slots.length ∧ t.slots[h]? = some sl ∧ ∀ j, j ≠ h → t.slots[j]? = s.slots[j]?

/-- The command is answered by `w`, and nothing around the slots and the GPIO registers changes. -/
def AnsweredBy (s t : State) (w : Word) : Prop := t.responses = s.responses ++ [w] ∧ s.SameSurroundings t

/-- A bit after a sequence of area writes: the last write that covers it decides it (20_memory.md R57). -/
def afterWrites (ws : List (Area × Bool)) (r : RegId) (k : Nat) (old : Bool) : Bool :=
  ws.foldl (fun b a => if a.1.covers r k then a.2 else b) old

/-- Every bit of every GPIO register is as the writes leave it; a bit no write covers is as before. -/
def WrittenBy (g g' : Memory) (ws : List (Area × Bool)) : Prop :=
  ∀ r k, bitOf g' r k = afterWrites ws r k (bitOf g r k)

/-- The twelve accesses of CONSTRUCT, as the table of 40_pool.md R111 numbers them. -/
def constructWrites (c : Bindings) : List (Area × Bool) :=
  [(portArea c.dir, false),    (ddrArea c.dir, true),
   (portArea c.enable, false), (ddrArea c.enable, true),
   (portArea c.step, false),   (ddrArea c.step, true),
   (portArea c.ms1, false),    (ddrArea c.ms1, true),
   (portArea c.ms2, false),    (ddrArea c.ms2, true),
   (portArea c.ms3, false),    (ddrArea c.ms3, true)]

/-- A slot as 40_pool.md R110 and R112 leave it. -/
def newSlot (c : Bindings) (speed : Byte) : Slot where
  status := .active
  bind := c
  speed := speed
  stepSize := .full
  desiredPos := 0x00#8
  dir := .forward

/-- The row of the opcode table (30_encoding.md R83; opcode_table.json) that a word lies in, with its fields read as
numbers. -/
def RowOf (w : Word) : Instr → Prop
  | .construct speed  => w &&& 0xFF00#16 = 0x1000#16 ∧ speed.toNat = w.toNat % 256
  | .destruct h       => w &&& 0xF0FF#16 = 0x2000#16 ∧ h = w.toNat / 256 % 16
  | .setspeed h speed => w &&& 0xF000#16 = 0x3000#16 ∧ h = w.toNat / 256 % 16 ∧ speed.toNat = w.toNat % 256
  | .getspeed h       => w &&& 0xF0FF#16 = 0x4000#16 ∧ h = w.toNat / 256 % 16
  | .setstep h size   => w &&& 0xF0F8#16 = 0x5000#16 ∧ h = w.toNat / 256 % 16 ∧
      [StepSize.full, .half, .quarter, .eighth, .sixteenth][w.toNat % 8]? = some size
  | .getstep h        => w &&& 0xF0FF#16 = 0x6000#16 ∧ h = w.toNat / 256 % 16
  | .setpos h pos     => w &&& 0xF000#16 = 0x7000#16 ∧ h = w.toNat / 256 % 16 ∧ pos.toNat = w.toNat % 256
  | .getpos h         => w &&& 0xF0FF#16 = 0x8000#16 ∧ h = w.toNat / 256 % 16
  | .setdir h d       => w &&& 0xF0FE#16 = 0x9000#16 ∧ h = w.toNat / 256 % 16 ∧
      [Direction.forward, .backward][w.toNat % 2]? = some d
  | .getdir h         => w &&& 0xF0FF#16 = 0xA000#16 ∧ h = w.toNat / 256 % 16
  | .step h           => w &&& 0xF0FF#16 = 0xB000#16 ∧ h = w.toNat / 256 % 16

/-- The words that spell no command, as 30_encoding.md R84 and 60_exceptions.md R164 list them. -/
def IllegalFields (w : Word) : Prop :=
  let op := w.toNat / 4096
  let h := w.toNat / 256 % 16
  let imm8 := w.toNat % 256
  op = 0x0 ∨ 0xC ≤ op ∨ (op = 0x1 ∧ h ≠ 0) ∨ (op ∈ [0x2, 0x4, 0x6, 0x8, 0xA, 0xB] ∧ imm8 ≠ 0) ∨
    (op = 0x5 ∧ (imm8 / 8 ≠ 0 ∨ 4 < imm8 % 8)) ∨ (op = 0x9 ∧ imm8 / 2 ≠ 0)

/-- The status of a command that decodes to `i` (30_encoding.md R82; 60_exceptions.md R161 to R163, R166). -/
def StatusIs (s : State) : Instr → Nat → Prop
  | .construct _, c  =>
    ((∃ sl ∈ s.slots, sl.status = .inactive) ∧ c = 0) ∨ ((∀ sl ∈ s.slots, sl.status = .active) ∧ c = 1)
  | .destruct _, c   => c = 0
  | .setpos h pos, c =>
    (s.Invalid h ∧ c = 2) ∨
      ((∃ sl, s.Holds h sl) ∧ ((s.posMax.toNat < pos.toNat ∧ c = 3) ∨ (pos.toNat ≤ s.posMax.toNat ∧ c = 0)))
  | .setspeed h _, c => (s.Invalid h ∧ c = 2) ∨ ((∃ sl, s.Holds h sl) ∧ c = 0)
  | .getspeed h, c   => (s.Invalid h ∧ c = 2) ∨ ((∃ sl, s.Holds h sl) ∧ c = 0)
  | .setstep h _, c  => (s.Invalid h ∧ c = 2) ∨ ((∃ sl, s.Holds h sl) ∧ c = 0)
  | .getstep h, c    => (s.Invalid h ∧ c = 2) ∨ ((∃ sl, s.Holds h sl) ∧ c = 0)
  | .getpos h, c     => (s.Invalid h ∧ c = 2) ∨ ((∃ sl, s.Holds h sl) ∧ c = 0)
  | .setdir h _, c   => (s.Invalid h ∧ c = 2) ∨ ((∃ sl, s.Holds h sl) ∧ c = 0)
  | .getdir h, c     => (s.Invalid h ∧ c = 2) ∨ ((∃ sl, s.Holds h sl) ∧ c = 0)
  | .step h, c       => (s.Invalid h ∧ c = 2) ∨ ((∃ sl, s.Holds h sl) ∧ c = 0)

/-- The data of a command that decodes to `i` and ends Ok (30_encoding.md R81). -/
def DataIs (s : State) : Instr → Nat → Prop
  | .construct _, d  => s.Allocates d
  | .getspeed h, d   => ∃ sl, s.Holds h sl ∧ d = sl.speed.toNat
  | .getstep h, d    => ∃ sl, s.Holds h sl ∧
      [StepSize.full, .half, .quarter, .eighth, .sixteenth][d]? = some sl.stepSize
  | .getpos h, d     => ∃ sl, s.Holds h sl ∧ d = sl.desiredPos.toNat
  | .getdir h, d     => ∃ sl, s.Holds h sl ∧ [Direction.forward, .backward][d]? = some sl.dir
  | .destruct _, d   => d = 0
  | .setspeed _ _, d => d = 0
  | .setstep _ _, d  => d = 0
  | .setpos _ _, d   => d = 0
  | .setdir _ _, d   => d = 0
  | .step _, d       => d = 0

/-- The areas a command writes to 0 or 1 in data registers: what "State written" lists (10_state.md R37;
40_pool.md R110; 41_motor_control.md R121 to R129).  Lines are those of the slot the handle names. -/
def portAreasWritten (s : State) : Instr → List Area
  | .construct _  => roleOrder.map fun L => portArea (s.cfgIn.get L)
  | .setstep h _  => match s.slots[h]? with
    | some sl => [portArea sl.bind.ms1, portArea sl.bind.ms2, portArea sl.bind.ms3]
    | none => []
  | .setdir h _   => match s.slots[h]? with
    | some sl => [portArea sl.bind.dir]
    | none => []
  | .step h       => match s.slots[h]? with
    | some sl => [portArea sl.bind.step]
    | none => []
  | .destruct _   => []
  | .setspeed _ _ => []
  | .getspeed _   => []
  | .getstep _    => []
  | .setpos _ _   => []
  | .getpos _     => []
  | .getdir _     => []

/-- The data-direction areas a command sets: CONSTRUCT's alone (10_state.md R37; 20_memory.md R55). -/
def ddrAreasWritten (s : State) : Instr → List Area
  | .construct _  => roleOrder.map fun L => ddrArea (s.cfgIn.get L)
  | .destruct _   => []
  | .setspeed _ _ => []
  | .getspeed _   => []
  | .setstep _ _  => []
  | .getstep _    => []
  | .setpos _ _   => []
  | .getpos _     => []
  | .setdir _ _   => []
  | .getdir _     => []
  | .step _       => []

/-- The microstep lines of a binding set share no data-register bit with each other, nor with their own
data-direction bits (10_state.md R33; entry 16). -/
def MsApart (c : Bindings) : Prop :=
  ∀ L ∈ [LineRole.ms1, .ms2, .ms3], ∀ M ∈ [LineRole.ms1, .ms2, .ms3],
    (L ≠ M → (portArea (c.get L)).Apart (portArea (c.get M))) ∧ (portArea (c.get L)).Apart (ddrArea (c.get M))

/-- No data-register area of a binding set shares a bit with a data-direction area of it (40_pool.md R111; entry 16). -/
def PortsApartFromDdrs (c : Bindings) : Prop :=
  ∀ L ∈ roleOrder, ∀ M ∈ roleOrder, (portArea (c.get L)).Apart (ddrArea (c.get M))

/-- The encoding of a command with a handle and an operand byte that must be 0 (30_encoding.md R83, R84). -/
def BareEncoding (op : BitVec 4) (command : Nat → Instr) : Prop :=
  ∀ (h : BitVec 4) (v : Byte),
    (v = 0#8 → decode (op ++ h ++ v) = .ok (command h.toNat)) ∧ (v ≠ 0#8 → ∃ e, decode (op ++ h ++ v) = .error e)

/-- Right after a CONSTRUCT of slot `i`, the getter `get` returns the response word `w speed`. -/
def AfterConstruct (get : Nat → Instr) (w : Byte → Word) : Prop :=
  ∀ (s t : State) (speed : Byte) (i : Nat), s.Allocates i → exec (.construct speed) s = .next t →
    exec (get i) t = .next (t.answered (w speed))

/-- The line of role `L` of a slot is driven at the value the slot's fields give it, on every bit of its mask. -/
def LineShows (g : Memory) (sl : Slot) (L : LineRole) : Prop :=
  ∀ k v, k < 8 → (sl.bind.get L).mask.getLsbD k = true → sl.shows L = some v → level g (sl.bind.get L) k = .drive v

/-- The data-register and data-direction bits of role `L` of `c` are the same in `g` and `g'`. -/
def LineUntouched (g g' : Memory) (c : Bindings) (L : LineRole) : Prop :=
  ∀ k, k < 8 → (c.get L).mask.getLsbD k = true →
    bitOf g' (c.get L).port k = bitOf g (c.get L).port k ∧ bitOf g' (c.get L).ddr k = bitOf g (c.get L).ddr k

end Sys2Proof.Spec

open Sys2Proof Sys2Proof.Machine Sys2Proof.Spec

/-! ### Decoding and encoding -/

/-- Words of 95_test_vectors.md 3.1, written out there from the fields (30_encoding.md R80, R83). -/
def Obligations.SpecVectorWordsDecode : Prop :=
  decode 0x1005#16 = .ok (.construct 5#8) ∧ decode 0x2000#16 = .ok (.destruct 0) ∧
    decode 0x30FF#16 = .ok (.setspeed 0 255#8) ∧ decode 0x5004#16 = .ok (.setstep 0 .sixteenth) ∧
    decode 0x70FF#16 = .ok (.setpos 0 255#8) ∧ decode 0x9F01#16 = .ok (.setdir 15 .backward) ∧
    decode 0xB000#16 = .ok (.step 0) ∧
    (decode 0x0000#16).toOption = none ∧ (decode 0x1105#16).toOption = none ∧
    (decode 0x2001#16).toOption = none ∧ (decode 0x4001#16).toOption = none ∧
    (decode 0x5005#16).toOption = none ∧ (decode 0x5008#16).toOption = none ∧
    (decode 0x9002#16).toOption = none ∧ (decode 0xB001#16).toOption = none ∧
    (decode 0xC000#16).toOption = none ∧ (decode 0xFFFF#16).toOption = none

/-- 30_encoding.md R83, R94: a word decodes to a command exactly when it lies in the command's row of the opcode map,
with its operands. -/
def Obligations.DecodeIsTheOpcodeMap : Prop := ∀ (w : Word) (i : Instr), decode w = .ok i ↔ RowOf w i

/-- 30_encoding.md R80, R83: decoding the word of a well-formed command gives it back, with every operand. -/
def Obligations.DecodeOfEncode : Prop := ∀ i : Instr, i.wellFormed = true → decode (encode i) = .ok i

/-- 30_encoding.md R94: a command has no other word, and no ill-formed command comes out of the decoder. -/
def Obligations.EncodeOfDecode : Prop :=
  ∀ (w : Word) (i : Instr), decode w = .ok i → i.wellFormed = true ∧ encode i = w

/-- 30_encoding.md R88, R91 to R93: the encoder's tables, with the codes; `enc_ms` is one-to-one and gives no unused pattern. -/
def Obligations.EncoderTables : Prop :=
  (∀ z : StepSize, [StepSize.full, .half, .quarter, .eighth, .sixteenth][z.code]? = some z) ∧
    encMs .full = { ms1 := false, ms2 := false, ms3 := false } ∧
    encMs .half = { ms1 := true, ms2 := false, ms3 := false } ∧
    encMs .quarter = { ms1 := false, ms2 := true, ms3 := false } ∧
    encMs .eighth = { ms1 := true, ms2 := true, ms3 := false } ∧
    encMs .sixteenth = { ms1 := true, ms2 := true, ms3 := true } ∧
    (∀ a b, encMs a = encMs b → a = b) ∧ (∀ a, (encMs a).ms3 = true → (encMs a).ms1 = true ∧ (encMs a).ms2 = true) ∧
    encDir .forward = false ∧ encDir .backward = true

/-! ### One step -/

/-- A step whose next input is a legal command word is that command, run with the word taken off the inputs and its
configuration at the configuration input (20_memory.md R60; 30_encoding.md R95; entry 5). -/
def Obligations.StepRunsDecodedCommand : Prop :=
  ∀ (s : State) (w : Word) (cfg : Bindings) (rest : List Input) (i : Instr),
    s.inputs = .command w cfg :: rest → decode w = .ok i →
      step s = exec i { s with cfgIn := cfg, inputs := rest }

/-- The word placed by `withFetchWord` is the next command, and nothing else changes (entry 20). -/
def Obligations.FetchWordRunsNext : Prop :=
  ∀ (s : State) (nbits w : Nat) (i : Instr), decodeTableWord nbits w = some i →
    step (s.withFetchWord nbits w) = exec i s

/-- With no input the block waits: the model's choice of entry 6 (70_reset_and_hazards.md R190: "it waits for the first
command"). -/
def Obligations.BlockWaitsWithoutInput : Prop := ∀ s : State, s.inputs = [] → step s = .next s

/-- 60_exceptions.md R164: the illegal words, and what one does. -/
def Obligations.IllegalWordChangesNothing : Prop :=
  (∀ w : Word, IllegalFields w ↔ ∃ e, decode w = .error e) ∧
    ∀ (s : State) (w : Word) (cfg : Bindings) (rest : List Input), s.inputs = .command w cfg :: rest → IllegalFields w →
      ∃ t, step s = .next t ∧ t.slots = s.slots ∧ t.gpio = s.gpio ∧ t.responses = s.responses ++ [0x0400#16] ∧
        t.posMax = s.posMax ∧ t.notPlain = s.notPlain ∧ t.inputs = rest

/-- The only step that can stop: CONSTRUCT with an Inactive slot left and a configuration that names a register which is
not plain storage (20_memory.md R51, U9; the model's choice of entry 9); every other step answers a next state
(60_exceptions.md R160). -/
def Obligations.StepStopsOnlyOnUnplainConfiguration : Prop :=
  ∀ s : State,
    (∃ t, step s = .next t) ∨
      (step s = .refused .bindingNotPlain ∧ ∃ w cfg rest speed, s.inputs = .command w cfg :: rest ∧
        decode w = .ok (.construct speed) ∧ bindingsPlain s.notPlain cfg = false ∧
        ∃ sl ∈ s.slots, sl.status = .inactive)

/-- 10_state.md R20 and 20_memory.md R51: an external write stores its value in its register and does nothing else.  That a
register of `notPlain` stores it too is the model's choice of entry 17. -/
def Obligations.ExternalWriteStoresItsValue : Prop :=
  ∀ (s : State) (r : RegId) (v : Byte) (rest : List Input),
    Memory.wf s.gpio = true → s.inputs = .external r v :: rest →
      ∃ t, step s = .next t ∧ t.gpio.read r = v ∧ (∀ x, x ≠ r → t.gpio.read x = s.gpio.read x) ∧ t.slots = s.slots ∧
        t.responses = s.responses ∧ t.posMax = s.posMax ∧ t.notPlain = s.notPlain ∧ t.cfgIn = s.cfgIn ∧ t.inputs = rest

/-! ### The response -/

/-- 30_encoding.md R81, R82 and 60_exceptions.md R166: every command, legal or not, that does not stop returns exactly one
response word, whose status and data are those of its rules. -/
def Obligations.EveryCommandReturnsItsResponse : Prop :=
  ∀ (s t : State) (w : Word) (cfg : Bindings) (rest : List Input),
    s.slots.length ≤ 16 → s.inputs = .command w cfg :: rest → step s = .next t →
      ∃ r : Word, t.responses = s.responses ++ [r] ∧ r.toNat / 2048 = 0 ∧
        (((∃ e, decode w = .error e) ∧ r.toNat / 256 % 8 = 4 ∧ r.toNat % 256 = 0) ∨
          ∃ i, decode w = .ok i ∧ StatusIs s i (r.toNat / 256 % 8) ∧
            (r.toNat / 256 % 8 = 0 → DataIs s i (r.toNat % 256)) ∧
            (r.toNat / 256 % 8 ≠ 0 → r.toNat % 256 = 0))

/-- 60_exceptions.md R165: a command that returns a status other than Ok has changed no slot and no GPIO register. -/
def Obligations.ErrorLeavesNoPartialState : Prop :=
  ∀ (s t : State) (w : Word) (cfg : Bindings) (rest : List Input),
    s.inputs = .command w cfg :: rest → step s = .next t →
      ∃ r : Word, t.responses = s.responses ++ [r] ∧
        (r.toNat / 256 % 8 ≠ 0 → t.slots = s.slots ∧ t.gpio = s.gpio)

/-- 41_motor_control.md R120: the nine commands answer HandleInvalid and change nothing on an invalid handle, and go on
with the slot on a valid one. -/
def Obligations.HandleIsCheckedFirst : Prop :=
  ∀ (i : Instr) (h : Nat) (s : State), i.checkedHandle? = some h →
    (s.Invalid h → exec i s = .next (s.answered 0x0200#16)) ∧
      ∀ sl, s.Holds h sl → Completes i s fun t => ∃ r : Word, t.responses = s.responses ++ [r] ∧ r.toNat / 256 % 8 ≠ 2

/-! ### The GPIO primitives -/

/-- 20_memory.md R53, R54: the value each primitive writes to the data register of its binding, and that it writes no
other register. -/
def Obligations.PinPrimitivesWriteTheirFormula : Prop :=
  ∀ (b : PinBinding) (g : Memory), Memory.wf g = true →
    (pinSet b g).read b.port = g.read b.port ||| b.mask ∧
      (pinClear b g).read b.port = g.read b.port &&& ~~~b.mask ∧
      (∀ r, r ≠ b.port → (pinSet b g).read r = g.read r ∧ (pinClear b g).read r = g.read r) ∧
      pinWrite b true g = pinSet b g ∧ pinWrite b false g = pinClear b g

/-- 20_memory.md R55: the value `DdrOutput` writes. -/
def Obligations.DdrOutputSetsItsMask : Prop :=
  ∀ (b : PinBinding) (g : Memory), Memory.wf g = true →
    (ddrOutput b g).read b.ddr = g.read b.ddr ||| b.mask ∧ ∀ r, r ≠ b.ddr → (ddrOutput b g).read r = g.read r

/-- 20_memory.md R56: with a mask of 0 every primitive leaves the register file unchanged. -/
def Obligations.ZeroMaskLeavesGpioUnchanged : Prop :=
  ∀ (b : PinBinding) (g : Memory) (v : Bool), Memory.wf g = true → b.mask = 0#8 →
    pinSet b g = g ∧ pinClear b g = g ∧ pinWrite b v g = g ∧ ddrOutput b g = g

/-! ### The pool commands -/

/-- 40_pool.md R110, R112 and the order of R111: CONSTRUCT takes the lowest Inactive slot, writes all its fields, makes
the twelve accesses in order and returns the slot as the handle; with every slot Active it changes nothing.  The
configuration names plain registers, as 20_memory.md R51 asks (entry 9). -/
def Obligations.ConstructAllocatesLowestInactiveSlot : Prop :=
  (∀ (h : BitVec 4) (v : Byte),
    (h = 0#4 → decode (0x1#4 ++ h ++ v) = .ok (.construct v)) ∧ (h ≠ 0#4 → ∃ e, decode (0x1#4 ++ h ++ v) = .error e)) ∧
    (∀ (s : State) (speed : Byte) (i : Nat),
      s.slots.length ≤ 16 → Memory.wf s.gpio = true → s.Allocates i → bindingsPlain s.notPlain s.cfgIn = true →
        Completes (.construct speed) s fun t =>
          OnlySlot s t i (newSlot s.cfgIn speed) ∧
          WrittenBy s.gpio t.gpio (constructWrites s.cfgIn) ∧ AnsweredBy s t (BitVec.ofNat 16 i)) ∧
    ∀ (s : State) (speed : Byte), (∀ sl ∈ s.slots, sl.status = .active) →
      exec (.construct speed) s = .next (s.answered 0x0100#16)

/-- 20_memory.md R51 and U9, where the refusal stands being the model's choice of entry 9: a configuration that names a
register which is not plain storage is refused. -/
def Obligations.UnplainConfigurationIsRefused : Prop :=
  ∀ (s : State) (speed : Byte) (L : LineRole),
    (∃ sl ∈ s.slots, sl.status = .inactive) → ((s.cfgIn.get L).port ∈ s.notPlain ∨ (s.cfgIn.get L).ddr ∈ s.notPlain) →
      exec (.construct speed) s = .refused .bindingNotPlain

/-- 40_pool.md R111: where no data-register area of the configuration shares a bit with a data-direction area of it (its
own included: entry 16), CONSTRUCT leaves all six lines driven low. -/
def Obligations.ConstructDrivesAllLinesLow : Prop :=
  ∀ (s t : State) (speed : Byte), Memory.wf s.gpio = true → PortsApartFromDdrs s.cfgIn →
    (∃ sl ∈ s.slots, sl.status = .inactive) → exec (.construct speed) s = .next t →
      ∀ L, t.gpio.read (s.cfgIn.get L).port &&& (s.cfgIn.get L).mask = 0#8 ∧
        t.gpio.read (s.cfgIn.get L).ddr &&& (s.cfgIn.get L).mask = (s.cfgIn.get L).mask ∧
        ∀ k, k < 8 → (s.cfgIn.get L).mask.getLsbD k = true → level t.gpio (s.cfgIn.get L) k = .drive false

/-- 40_pool.md R113: DESTRUCT of any handle. -/
def Obligations.DestructMarksSlotInactive : Prop :=
  BareEncoding 0x2#4 .destruct ∧
    (∀ (s : State) (h : Nat) (sl : Slot), s.slots[h]? = some sl →
      Completes (.destruct h) s fun t =>
        OnlySlot s t h { sl with status := .inactive } ∧ t.gpio = s.gpio ∧ AnsweredBy s t 0x0000#16) ∧
    ∀ (s : State) (h : Nat), s.slots.length ≤ h → exec (.destruct h) s = .next (s.answered 0x0000#16)

/-- 40_pool.md R114: which steps change a slot's status; reset is the only other one (70_reset_and_hazards.md R190). -/
def Obligations.StatusFollowsTheLifeCycle : Prop :=
  ∀ (s t : State) (j : Nat) (a b : Slot), step s = .next t → s.slots[j]? = some a → t.slots[j]? = some b →
    (a.status = .inactive → (b.status = .active ↔ ∃ w cfg rest speed, s.inputs = .command w cfg :: rest ∧
      decode w = .ok (.construct speed) ∧ s.Allocates j)) ∧
    (a.status = .active → (b.status = .inactive ↔
      (∃ w cfg rest, s.inputs = .command w cfg :: rest ∧ decode w = .ok (.destruct j)) ∨
        ∃ rest, s.inputs = .reset :: rest))

/-- 70_reset_and_hazards.md R194: after DESTRUCT of slot `h` and a CONSTRUCT that reuses it, the handle `h` names the new
occupant. -/
def Obligations.StaleHandleNamesNewOccupant : Prop :=
  ∀ (s : State) (h : Nat) (sl : Slot) (speed : Byte),
    s.slots.length ≤ 16 → s.Holds h sl → (∀ j, j < h → ∃ a, s.slots[j]? = some a ∧ a.status = .active) →
      bindingsPlain s.notPlain s.cfgIn = true →
        ∃ t u, exec (.destruct h) s = .next t ∧ exec (.construct speed) t = .next u ∧
          u.responses = s.responses ++ [0x0000#16, BitVec.ofNat 16 h] ∧
          ∃ new, u.Holds h new ∧ new.bind = s.cfgIn ∧ new.speed = speed

/-! ### The motor commands -/

/-- 41_motor_control.md R121. -/
def Obligations.SetspeedStoresTheSpeed : Prop :=
  (∀ (h : BitVec 4) (v : Byte), decode (0x3#4 ++ h ++ v) = .ok (.setspeed h.toNat v)) ∧
    (∀ (s : State) (h : Nat) (v : Byte) (sl : Slot), s.Holds h sl →
      Completes (.setspeed h v) s fun t =>
        OnlySlot s t h { sl with speed := v } ∧ t.gpio = s.gpio ∧ AnsweredBy s t 0x0000#16) ∧
    ∀ (s : State) (h : Nat) (v : Byte), s.Invalid h → exec (.setspeed h v) s = .next (s.answered 0x0200#16)

/-- 41_motor_control.md R122. -/
def Obligations.GetspeedReturnsTheSpeed : Prop :=
  BareEncoding 0x4#4 .getspeed ∧
    (∀ (s : State) (h : Nat) (sl : Slot), s.Holds h sl →
      exec (.getspeed h) s = .next (s.answered (sl.speed.setWidth 16))) ∧
    (∀ (s : State) (h : Nat), s.Invalid h → exec (.getspeed h) s = .next (s.answered 0x0200#16)) ∧
    AfterConstruct .getspeed fun speed => speed.setWidth 16

/-- 41_motor_control.md R123: the three lines, in order, then the field. -/
def Obligations.SetstepWritesTheMicrostepLines : Prop :=
  (∀ (h : BitVec 4) (z : StepSize) (c : Nat),
    [StepSize.full, .half, .quarter, .eighth, .sixteenth][c]? = some z →
      decode (0x5#4 ++ h ++ BitVec.ofNat 8 c) = .ok (.setstep h.toNat z)) ∧
    (∀ (h : BitVec 4) (v : Byte), 4 < v.toNat → ∃ e, decode (0x5#4 ++ h ++ v) = .error e) ∧
    (∀ (s : State) (h : Nat) (z : StepSize) (sl : Slot), Memory.wf s.gpio = true → s.Holds h sl →
      Completes (.setstep h z) s fun t =>
        OnlySlot s t h { sl with stepSize := z } ∧
        WrittenBy s.gpio t.gpio
          [(portArea sl.bind.ms1, (encMs z).ms1), (portArea sl.bind.ms2, (encMs z).ms2),
           (portArea sl.bind.ms3, (encMs z).ms3)] ∧
        AnsweredBy s t 0x0000#16) ∧
    ∀ (s : State) (h : Nat) (z : StepSize), s.Invalid h → exec (.setstep h z) s = .next (s.answered 0x0200#16)

/-- 41_motor_control.md R124: the stored code; the lines are not read. -/
def Obligations.GetstepReturnsTheStoredCode : Prop :=
  BareEncoding 0x6#4 .getstep ∧
    (∀ (s : State) (h : Nat) (sl : Slot) (c : Nat), s.Holds h sl →
      [StepSize.full, .half, .quarter, .eighth, .sixteenth][c]? = some sl.stepSize →
        exec (.getstep h) s = .next (s.answered (BitVec.ofNat 16 c))) ∧
    (∀ (s : State) (h : Nat), s.Invalid h → exec (.getstep h) s = .next (s.answered 0x0200#16)) ∧
    AfterConstruct .getstep fun _ => 0x0000#16

/-- 41_motor_control.md R125: the handle first, then the range. -/
def Obligations.SetposStoresALegalPosition : Prop :=
  (∀ (h : BitVec 4) (v : Byte), decode (0x7#4 ++ h ++ v) = .ok (.setpos h.toNat v)) ∧
    (∀ (s : State) (h : Nat) (v : Byte) (sl : Slot), s.Holds h sl → v.toNat ≤ s.posMax.toNat →
      Completes (.setpos h v) s fun t =>
        OnlySlot s t h { sl with desiredPos := v } ∧ t.gpio = s.gpio ∧ AnsweredBy s t 0x0000#16) ∧
    (∀ (s : State) (h : Nat) (v : Byte) (sl : Slot), s.Holds h sl → s.posMax.toNat < v.toNat →
      exec (.setpos h v) s = .next (s.answered 0x0300#16)) ∧
    ∀ (s : State) (h : Nat) (v : Byte), s.Invalid h → exec (.setpos h v) s = .next (s.answered 0x0200#16)

/-- 41_motor_control.md R126; the result is a legal position (10_state.md R26). -/
def Obligations.GetposReturnsTheTarget : Prop :=
  BareEncoding 0x8#4 .getpos ∧
    (∀ (s : State) (h : Nat) (sl : Slot), s.Holds h sl →
      exec (.getpos h) s = .next (s.answered (sl.desiredPos.setWidth 16)) ∧
        (s.PositionsLegal → (sl.desiredPos.setWidth 16 : Word).toNat ≤ s.posMax.toNat)) ∧
    (∀ (s : State) (h : Nat), s.Invalid h → exec (.getpos h) s = .next (s.answered 0x0200#16)) ∧
    AfterConstruct .getpos fun _ => 0x0000#16

/-- 41_motor_control.md R127: the field, and the DIR line cleared or set. -/
def Obligations.SetdirDrivesTheDirLine : Prop :=
  (∀ (h : BitVec 4) (d : Direction) (c : Nat), [Direction.forward, .backward][c]? = some d →
      decode (0x9#4 ++ h ++ BitVec.ofNat 8 c) = .ok (.setdir h.toNat d)) ∧
    (∀ (h : BitVec 4) (v : Byte), 1 < v.toNat → ∃ e, decode (0x9#4 ++ h ++ v) = .error e) ∧
    (∀ (s : State) (h : Nat) (d : Direction) (sl : Slot), Memory.wf s.gpio = true → s.Holds h sl →
      Completes (.setdir h d) s fun t =>
        OnlySlot s t h { sl with dir := d } ∧
        WrittenBy s.gpio t.gpio [(portArea sl.bind.dir, encDir d)] ∧ AnsweredBy s t 0x0000#16) ∧
    ∀ (s : State) (h : Nat) (d : Direction), s.Invalid h → exec (.setdir h d) s = .next (s.answered 0x0200#16)

/-- 41_motor_control.md R128: the stored code; the line is not read. -/
def Obligations.GetdirReturnsTheStoredCode : Prop :=
  BareEncoding 0xA#4 .getdir ∧
    (∀ (s : State) (h : Nat) (sl : Slot) (c : Nat), s.Holds h sl → [Direction.forward, .backward][c]? = some sl.dir →
      exec (.getdir h) s = .next (s.answered (BitVec.ofNat 16 c))) ∧
    (∀ (s : State) (h : Nat), s.Invalid h → exec (.getdir h) s = .next (s.answered 0x0200#16)) ∧
    AfterConstruct .getdir fun _ => 0x0000#16

/-- 41_motor_control.md R129: the STEP line is set; no slot changes. -/
def Obligations.StepSetsTheStepLine : Prop :=
  BareEncoding 0xB#4 .step ∧
    (∀ (s : State) (h : Nat) (sl : Slot), Memory.wf s.gpio = true → s.Holds h sl →
      Completes (.step h) s fun t =>
        t.slots = s.slots ∧ WrittenBy s.gpio t.gpio [(portArea sl.bind.step, true)] ∧ AnsweredBy s t 0x0000#16) ∧
    ∀ (s : State) (h : Nat), s.Invalid h → exec (.step h) s = .next (s.answered 0x0200#16)

/-- 70_reset_and_hazards.md R196: STEP clears no bit, and a second STEP changes nothing in the register file. -/
def Obligations.StepNeverClearsABit : Prop :=
  ∀ (s t : State) (h : Nat), Memory.wf s.gpio = true → exec (.step h) s = .next t →
    (∀ r k, bitOf s.gpio r k = true → bitOf t.gpio r k = true) ∧
      ∃ u, exec (.step h) t = .next u ∧ u.gpio = t.gpio ∧ u.slots = t.slots

/-! ### Frames over all commands -/

/-- 41_motor_control.md R130 and 10_state.md R37: what a command leaves unchanged, for every command that completes:
every bit outside the areas its rule lists, every slot field its column of the access table does not write, and
everything around them. -/
def Obligations.CommandsChangeOnlyTheirOwnState : Prop :=
  ∀ (i : Instr) (s t : State), Memory.wf s.gpio = true → exec i s = .next t →
    (∀ r k, (∀ a ∈ portAreasWritten s i ++ ddrAreasWritten s i, a.covers r k = false) →
      bitOf t.gpio r k = bitOf s.gpio r k) ∧
    s.SameSurroundings t ∧ t.slots.length = s.slots.length ∧
    ∀ j a b, s.slots[j]? = some a → t.slots[j]? = some b →
      (b.status ≠ a.status → (∃ v, i = .construct v ∧ s.Allocates j) ∨ i = .destruct j) ∧
      (b.bind ≠ a.bind → ∃ v, i = .construct v ∧ s.Allocates j) ∧
      (b.speed ≠ a.speed → (∃ v, i = .construct v ∧ s.Allocates j) ∨ ∃ v, i = .setspeed j v) ∧
      (b.stepSize ≠ a.stepSize → (∃ v, i = .construct v ∧ s.Allocates j) ∨ ∃ z, i = .setstep j z) ∧
      (b.desiredPos ≠ a.desiredPos → (∃ v, i = .construct v ∧ s.Allocates j) ∨ ∃ v, i = .setpos j v) ∧
      (b.dir ≠ a.dir → (∃ v, i = .construct v ∧ s.Allocates j) ∨ ∃ d, i = .setdir j d)

/-- 20_memory.md R55: a command clears a bit only in a data-register area it writes, so no command makes a line an
input again where data and data-direction bits are apart. -/
def Obligations.OnlyDataRegisterBitsAreCleared : Prop :=
  ∀ (i : Instr) (s t : State) (r : RegId) (k : Nat), Memory.wf s.gpio = true → exec i s = .next t →
    bitOf s.gpio r k = true → bitOf t.gpio r k = false → ∃ a ∈ portAreasWritten s i, a.covers r k = true

/-- 30_encoding.md R95: every command but CONSTRUCT ignores the configuration input. -/
def Obligations.OnlyConstructReadsTheConfiguration : Prop :=
  ∀ (i : Instr) (s t : State) (c : Bindings), (∀ v, i ≠ .construct v) → exec i s = .next t →
    exec i { s with cfgIn := c } = .next { t with cfgIn := c }

/-- 10_state.md R36, R37: no response and no slot field depends on the contents of a GPIO register. -/
def Obligations.ResponsesDoNotDependOnGpio : Prop :=
  ∀ (i : Instr) (s t : State) (g : Memory), exec i s = .next t →
    ∃ t', exec i { s with gpio := g } = .next t' ∧ t'.slots = t.slots ∧ t'.responses = t.responses

/-! ### Reset -/

/-- 70_reset_and_hazards.md R190 for any parameters: N slots, all Inactive, G = GPIO_INIT; the
model's own lists of inputs and responses are empty (entries 5, 10); and the default parameters of 00_scope.md R9
(entries 2, 3). -/
def Obligations.ResetStateIsEmptyPool : Prop :=
  (∀ p : Params, (State.resetWith p).slots.length = p.slotCount ∧
    (∀ sl ∈ (State.resetWith p).slots, sl.status = .inactive) ∧
    (∀ r, (State.resetWith p).gpio.read r = Memory.read p.gpioInit r) ∧ (State.resetWith p).posMax = p.posMax ∧
    (State.resetWith p).responses = [] ∧ (State.resetWith p).inputs = []) ∧
  State.reset = State.resetWith Config.defaults ∧ Config.defaults.slotCount = 2 ∧ Config.defaults.posMax.toNat = 199

/-- 70_reset_and_hazards.md R190, R191: a reset between two commands makes every slot Inactive and leaves every GPIO register
(N and POS_MAX are as before).  That a reset is an input of a run, and what it leaves besides the slots and the registers,
is the model's choice of entry 11. -/
def Obligations.ResetClearsNoGpioRegister : Prop :=
  ∀ (s : State) (rest : List Input), s.inputs = .reset :: rest →
    ∃ t, step s = .next t ∧ t.slots.length = s.slots.length ∧ (∀ sl ∈ t.slots, sl.status = .inactive) ∧
      t.gpio = s.gpio ∧ t.responses = s.responses ∧ t.posMax = s.posMax ∧ t.inputs = rest

/-- 10_state.md R22: on the empty pool after reset, for any parameters, the first CONSTRUCT returns handle 0. -/
def Obligations.FirstConstructReturnsHandleZero : Prop :=
  ∀ (p : Params) (cfg : Bindings) (speed : Byte), p.Legal → bindingsPlain p.notPlain cfg = true →
    Completes (.construct speed) { State.resetWith p with cfgIn := cfg } fun t =>
      t.responses = [0x0000#16] ∧ ∃ sl, t.Holds 0 sl ∧ sl.bind = cfg ∧ sl.speed = speed

/-! ### Invariants -/

/-- The invariant holds after reset, for any legal parameters (00_scope.md R9; 10_state.md R21, R26; the position of
an Inactive slot is the model's choice of entry 4). -/
def Obligations.InvariantHoldsAtReset : Prop := (∀ p : Params, p.Legal → (State.resetWith p).Inv) ∧ State.reset.Inv

/-- Every step keeps the invariant: a pool of 1 to 16 slots, a canonical register file, legal positions (10_state.md R26:
"It always satisfies desired_pos <= POS_MAX"), and plain bindings in every Active slot.  A reset gives the position of
entry 4, the model's choice. -/
def Obligations.StepKeepsTheInvariant : Prop := ∀ s t : State, s.Inv → step s = .next t → t.Inv

/-- 00_scope.md R9, 10_state.md R21, R38: no step changes a parameter. -/
def Obligations.StepKeepsTheParameters : Prop :=
  ∀ s t : State, step s = .next t →
    t.slots.length = s.slots.length ∧ t.posMax = s.posMax ∧ t.notPlain = s.notPlain

/-- 10_state.md R33 and R34 as an invariant of every step, over a well-wired pool (70_reset_and_hazards.md R199; entry 16): the
lines of every Active slot are driven; MS1 to MS3 show `enc_ms(step_size)`, DIR shows `enc_dir(dir)` and ENABLE is
low. -/
def Obligations.StepKeepsLinesShowingTheirFields : Prop :=
  ∀ s t : State, Memory.wf s.gpio = true → s.Wired → s.PinsShown →
    (∀ x ∈ s.inputs.head?, s.Undisturbed x) → step s = .next t → t.Wired ∧ t.PinsShown

/-- 10_state.md R33 for one Active slot, with the extra condition of entry 16: its microstep lines show
`enc_ms(step_size)` after a step that allocates the slot or sets its step size, and go on showing it after a step
that touches none of their bits. -/
def Obligations.MicrostepLinesFollowStepSize : Prop :=
  ∀ (s t : State) (i : Nat) (sl : Slot), Memory.wf s.gpio = true → step s = .next t → t.Holds i sl → MsApart sl.bind →
    ((∃ w cfg rest speed, s.inputs = .command w cfg :: rest ∧ decode w = .ok (.construct speed) ∧ s.Allocates i) ∨
      (∃ old, s.Holds i old ∧ (∀ L ∈ [LineRole.ms1, .ms2, .ms3], LineShows s.gpio old L) ∧
        ((∃ w cfg rest z, s.inputs = .command w cfg :: rest ∧ decode w = .ok (.setstep i z)) ∨
          ((∀ w cfg rest z, s.inputs = .command w cfg :: rest → decode w ≠ .ok (.setstep i z)) ∧
            ∀ L ∈ [LineRole.ms1, .ms2, .ms3], LineUntouched s.gpio t.gpio old.bind L)))) →
      ∀ L ∈ [LineRole.ms1, .ms2, .ms3], LineShows t.gpio sl L

/-! ### What the host can see, and runs -/

/-- 10_state.md R35: two states that differ only in the fields of Inactive slots answer alike, drive the same registers,
and go on differing only there. -/
def Obligations.InactiveSlotFieldsAreUnobservable : Prop :=
  ∀ s t s' : State, s.Alike t → step s = .next s' → ∃ t', step t = .next t' ∧ s'.Alike t'

/-- 70_reset_and_hazards.md R204, 30_encoding.md R81, over the input list of entry 5: a run uses up its inputs and adds as many
responses as it has commands.  The host presents plain registers with every command, also with those that ignore the
configuration (70_reset_and_hazards.md R193; entries 7, 9). -/
def Obligations.RunAnswersEveryCommand : Prop :=
  ∀ s : State, s.HostDutiful →
    ∃ t : State, Host.Core.run Sys2Proof.core s.inputs.length s = .next t ∧ t.inputs = [] ∧
      ∃ new : List Word, t.responses = s.responses ++ new ∧ new.length = s.inputs.countP Input.isCommand

/-! ### Any parameters -/

/-- 00_scope.md R9: for any type of register identifiers with decidable equality, any `GPIO_INIT`, `N` and `POS_MAX`, one step of
the block over those parameters and the step of this machine on the numbered registers have the same outcome
(20_memory.md R50, R64; entries 1, 2). -/
def Obligations.StepIsTheStepOverAnyParameters : Prop :=
  ∀ (R : Type) [DecidableEq R] (p : Open.Params R) (ρ : R → RegId) (rs : List R) (s : Open.Board R) (t : State)
    (x : Open.Input R) (rest : List Input),
    Open.NumbersApart ρ rs → (∀ r ∈ x.registers, r ∈ rs) → s.Matches p ρ rs t → t.inputs = x.number ρ :: rest →
      Open.SameOutcome (Open.step p x s) (step t) fun s' t' => s'.Matches p ρ rs t' ∧ t'.inputs = rest

/-- 00_scope.md R9, 70_reset_and_hazards.md R190, R204: for any parameters, whatever `GPIO_INIT` holds in any register and
whatever reset leaves in the slots, every run from reset is a run of this machine from its own reset state on the
registers the run names, numbered in any way; and there is such a numbering (entries 1, 2, 4, 5). -/
def Obligations.RunIsTheRunOverAnyParameters : Prop :=
  ∀ (R : Type) [DecidableEq R] (p : Open.Params R) (xs : List (Open.Input R)),
    (∃ ρ : R → RegId, Open.NumbersApart ρ (xs.flatMap Open.Input.registers)) ∧
      ∀ ρ : R → RegId, Open.NumbersApart ρ (xs.flatMap Open.Input.registers) →
        Open.SameOutcome (Open.run p xs p.reset)
          (Host.Core.run Sys2Proof.core xs.length
            { State.resetWith (p.number ρ (xs.flatMap Open.Input.registers)) with
              inputs := xs.map (Open.Input.number ρ) : State })
          fun s t => s.Matches p ρ (xs.flatMap Open.Input.registers) t ∧ t.inputs = []
end

