-- ==== Sys2Proof/Laws/Decode.lean ====
section
/-! SUPPORT. The three fields of a command word (30_encoding.md R80): the word of three fields has them, and a word is
the word of its fields. -/

namespace Sys2Proof

theorem getLsbD_commandWord (op h : BitVec 4) (b : Byte) (k : Nat) :
    (commandWord op h b).getLsbD k =
      if k < 8 then b.getLsbD k else if k < 12 then h.getLsbD (k - 8) else op.getLsbD (k - 12) := by
  rw [commandWord, BitVec.getLsbD_append, BitVec.getLsbD_append]
  split
  · simp [*]
  · split
    · rw [if_pos (by omega)]
    · rw [if_neg (by omega), Nat.sub_sub]

@[simp] theorem opField_commandWord (op h : BitVec 4) (b : Byte) : opField (commandWord op h b) = op := by
  apply BitVec.eq_of_getLsbD_eq
  intro k hk
  rw [opField, BitVec.getLsbD_extractLsb', getLsbD_commandWord, if_neg (by omega), if_neg (by omega)]
  simp [hk]

@[simp] theorem handleField_commandWord (op h : BitVec 4) (b : Byte) : handleField (commandWord op h b) = h := by
  apply BitVec.eq_of_getLsbD_eq
  intro k hk
  rw [handleField, BitVec.getLsbD_extractLsb', getLsbD_commandWord, if_neg (by omega), if_pos (by omega)]
  simp [hk]

@[simp] theorem imm8Field_commandWord (op h : BitVec 4) (b : Byte) : imm8Field (commandWord op h b) = b := by
  apply BitVec.eq_of_getLsbD_eq
  intro k hk
  rw [imm8Field, BitVec.getLsbD_extractLsb', getLsbD_commandWord, if_pos (by omega)]
  simp [hk]

/-- A word is the word of its three fields. -/
theorem commandWord_fields (w : Word) : commandWord (opField w) (handleField w) (imm8Field w) = w := by
  apply BitVec.eq_of_getLsbD_eq
  intro k hk
  rw [getLsbD_commandWord]
  simp only [opField, handleField, imm8Field, BitVec.getLsbD_extractLsb']
  split
  · simp [*]
  · split
    · simp only [show k - 8 < 4 by omega, decide_true, Bool.true_and, show 8 + (k - 8) = k by omega]
    · simp only [show k - 12 < 4 by omega, decide_true, Bool.true_and, show 12 + (k - 12) = k by omega]

/-- The decoder sees the three fields. -/
theorem decode_commandWord (op h : BitVec 4) (b : Byte) : decode (commandWord op h b) = decodeFields op.toNat h b := by
  simp [decode]

/-- Every step code comes from its step size (30_encoding.md R88). -/
theorem StepSize.ofCode_eq_some_iff (n : Nat) (z : StepSize) : StepSize.ofCode n = some z ↔ n = z.code := by
  unfold StepSize.ofCode
  split <;> cases z <;> simp_all [StepSize.code]

/-! ### A field word under the masks of the opcode table -/

/-- A field word under the mask whose handle bits are `mh` and whose operand bits are `mb`, the opcode bits being all set. -/
theorem commandWord_and (op h mh : BitVec 4) (b mb : Byte) :
    commandWord op h b &&& commandWord 0xF#4 mh mb = commandWord op (h &&& mh) (b &&& mb) := by
  apply BitVec.eq_of_getLsbD_eq
  intro k hk
  rw [BitVec.getLsbD_and, getLsbD_commandWord, getLsbD_commandWord, getLsbD_commandWord]
  split
  · rw [BitVec.getLsbD_and]
  · split
    · rw [BitVec.getLsbD_and]
    · have hF : (0xF#4).getLsbD (k - 12) = true := by
        have : k - 12 < 4 := by omega
        interval_cases h : k - 12 <;> rfl
      rw [hF, Bool.and_true]

theorem commandWord_and_F000 (op h : BitVec 4) (b : Byte) : commandWord op h b &&& 0xF000#16 = commandWord op 0#4 0#8 := by
  have := commandWord_and op h 0#4 b 0#8
  rwa [BitVec.and_zero, BitVec.and_zero] at this

theorem commandWord_and_FF00 (op h : BitVec 4) (b : Byte) : commandWord op h b &&& 0xFF00#16 = commandWord op h 0#8 := by
  have := commandWord_and op h 0xF#4 b 0#8
  rwa [show h &&& 0xF#4 = h from BitVec.and_allOnes, BitVec.and_zero] at this

theorem commandWord_and_F0FF (op h : BitVec 4) (b : Byte) : commandWord op h b &&& 0xF0FF#16 = commandWord op 0#4 b := by
  have := commandWord_and op h 0#4 b 0xFF#8
  rwa [show b &&& 0xFF#8 = b from BitVec.and_allOnes, BitVec.and_zero] at this

theorem commandWord_and_F0F8 (op h : BitVec 4) (b : Byte) :
    commandWord op h b &&& 0xF0F8#16 = commandWord op 0#4 (b &&& 0xF8#8) := by
  have := commandWord_and op h 0#4 b 0xF8#8
  rwa [BitVec.and_zero] at this

theorem commandWord_and_F0FE (op h : BitVec 4) (b : Byte) :
    commandWord op h b &&& 0xF0FE#16 = commandWord op 0#4 (b &&& 0xFE#8) := by
  have := commandWord_and op h 0#4 b 0xFE#8
  rwa [BitVec.and_zero] at this

/-- Two field words are equal exactly when their fields are. -/
theorem commandWord_inj {op op' h h' : BitVec 4} {b b' : Byte} :
    commandWord op h b = commandWord op' h' b' ↔ op = op' ∧ h = h' ∧ b = b' := by
  constructor
  · intro he
    exact ⟨by simpa using congrArg opField he, by simpa using congrArg handleField he, by simpa using congrArg imm8Field he⟩
  · rintro ⟨rfl, rfl, rfl⟩; rfl

/-- The fields of a word read as numbers. -/
theorem fields_toNat (w : Word) :
    (opField w).toNat = w.toNat / 4096 ∧ (handleField w).toNat = w.toNat / 256 % 16 ∧
      (imm8Field w).toNat = w.toNat % 256 := by
  refine ⟨?_, ?_, ?_⟩
  · simp only [opField, BitVec.extractLsb'_toNat, Nat.shiftRight_eq_div_pow]; omega
  · simp only [handleField, BitVec.extractLsb'_toNat, Nat.shiftRight_eq_div_pow]
  · simp only [imm8Field, BitVec.extractLsb'_toNat, Nat.shiftRight_zero]

end Sys2Proof
end

