-- ==== Sys2Proof/Laws/Flags.lean ====
section
/-! SUPPORT. A response word read as a number: its status and data fields (30_encoding.md R81). -/

namespace Sys2Proof.Machine

theorem toNat_responseWord (c : ResultCode) (d : Byte) :
    (responseWord c d).toNat = c.code.toNat * 256 + d.toNat := by
  have h1 : ((0#5 ++ c.code : BitVec 8)).toNat = c.code.toNat := by cases c <;> rfl
  have h2 : (responseWord c d).toNat = (0#5 ++ c.code : BitVec 8).toNat <<< 8 ||| d.toNat :=
    BitVec.toNat_append _ _
  rw [h2, h1, ← Nat.shiftLeft_add_eq_or_of_lt d.isLt, Nat.shiftLeft_eq]

theorem ResultCode.code_lt (c : ResultCode) : c.code.toNat ≤ 4 := by cases c <;> decide

/-- The five bits above the status are 0. -/
theorem responseWord_top (c : ResultCode) (d : Byte) : (responseWord c d).toNat / 2048 = 0 := by
  have := c.code_lt; have := d.isLt; rw [toNat_responseWord]; omega

/-- The status field. -/
theorem responseWord_status (c : ResultCode) (d : Byte) : (responseWord c d).toNat / 256 % 8 = c.code.toNat := by
  have := c.code_lt; have := d.isLt; rw [toNat_responseWord]; omega

/-- The data field. -/
theorem responseWord_data (c : ResultCode) (d : Byte) : (responseWord c d).toNat % 256 = d.toNat := by
  have := d.isLt; rw [toNat_responseWord]; omega

theorem responseWord_ok (d : Byte) : responseWord .ok d = d.setWidth 16 := by
  apply BitVec.eq_of_toNat_eq
  rw [toNat_responseWord, BitVec.toNat_setWidth_of_le (by decide)]
  simp [ResultCode.code]

end Sys2Proof.Machine
end

