-- ==== Sys2Proof/Laws/State.lean ====
section
/-! SUPPORT. One lemma per field per update of State, true by rfl. -/

namespace Sys2Proof.Machine

variable (s : State)

@[simp] theorem State.setSlot_slots (h : Nat) (sl : Slot) : (s.setSlot h sl).slots = s.slots.set h sl := rfl
@[simp] theorem State.setSlot_posMax (h : Nat) (sl : Slot) : (s.setSlot h sl).posMax = s.posMax := rfl
@[simp] theorem State.setSlot_gpio (h : Nat) (sl : Slot) : (s.setSlot h sl).gpio = s.gpio := rfl
@[simp] theorem State.setSlot_notPlain (h : Nat) (sl : Slot) : (s.setSlot h sl).notPlain = s.notPlain := rfl
@[simp] theorem State.setSlot_cfgIn (h : Nat) (sl : Slot) : (s.setSlot h sl).cfgIn = s.cfgIn := rfl
@[simp] theorem State.setSlot_inputs (h : Nat) (sl : Slot) : (s.setSlot h sl).inputs = s.inputs := rfl
@[simp] theorem State.setSlot_responses (h : Nat) (sl : Slot) : (s.setSlot h sl).responses = s.responses := rfl

@[simp] theorem State.setGpio_slots (g : Memory) : (s.setGpio g).slots = s.slots := rfl
@[simp] theorem State.setGpio_posMax (g : Memory) : (s.setGpio g).posMax = s.posMax := rfl
@[simp] theorem State.setGpio_gpio (g : Memory) : (s.setGpio g).gpio = g := rfl
@[simp] theorem State.setGpio_notPlain (g : Memory) : (s.setGpio g).notPlain = s.notPlain := rfl
@[simp] theorem State.setGpio_cfgIn (g : Memory) : (s.setGpio g).cfgIn = s.cfgIn := rfl
@[simp] theorem State.setGpio_inputs (g : Memory) : (s.setGpio g).inputs = s.inputs := rfl
@[simp] theorem State.setGpio_responses (g : Memory) : (s.setGpio g).responses = s.responses := rfl

@[simp] theorem State.respond_slots (c : ResultCode) (d : Byte) : (s.respond c d).slots = s.slots := rfl
@[simp] theorem State.respond_posMax (c : ResultCode) (d : Byte) : (s.respond c d).posMax = s.posMax := rfl
@[simp] theorem State.respond_gpio (c : ResultCode) (d : Byte) : (s.respond c d).gpio = s.gpio := rfl
@[simp] theorem State.respond_notPlain (c : ResultCode) (d : Byte) : (s.respond c d).notPlain = s.notPlain := rfl
@[simp] theorem State.respond_cfgIn (c : ResultCode) (d : Byte) : (s.respond c d).cfgIn = s.cfgIn := rfl
@[simp] theorem State.respond_inputs (c : ResultCode) (d : Byte) : (s.respond c d).inputs = s.inputs := rfl
@[simp] theorem State.respond_responses (c : ResultCode) (d : Byte) : (s.respond c d).responses = s.responses ++ [responseWord c d] := rfl

@[simp] theorem State.raise_slots (c : ResultCode) : (s.raise c).slots = s.slots := rfl
@[simp] theorem State.raise_posMax (c : ResultCode) : (s.raise c).posMax = s.posMax := rfl
@[simp] theorem State.raise_gpio (c : ResultCode) : (s.raise c).gpio = s.gpio := rfl
@[simp] theorem State.raise_notPlain (c : ResultCode) : (s.raise c).notPlain = s.notPlain := rfl
@[simp] theorem State.raise_cfgIn (c : ResultCode) : (s.raise c).cfgIn = s.cfgIn := rfl
@[simp] theorem State.raise_inputs (c : ResultCode) : (s.raise c).inputs = s.inputs := rfl
@[simp] theorem State.raise_responses (c : ResultCode) : (s.raise c).responses = s.responses ++ [responseWord c 0#8] := rfl

@[simp] theorem State.illegalCommand_slots : (s.illegalCommand).slots = s.slots := rfl
@[simp] theorem State.illegalCommand_posMax : (s.illegalCommand).posMax = s.posMax := rfl
@[simp] theorem State.illegalCommand_gpio : (s.illegalCommand).gpio = s.gpio := rfl
@[simp] theorem State.illegalCommand_notPlain : (s.illegalCommand).notPlain = s.notPlain := rfl
@[simp] theorem State.illegalCommand_cfgIn : (s.illegalCommand).cfgIn = s.cfgIn := rfl
@[simp] theorem State.illegalCommand_inputs : (s.illegalCommand).inputs = s.inputs := rfl
@[simp] theorem State.illegalCommand_responses : (s.illegalCommand).responses = s.responses ++ [responseWord .illegalCommand 0#8] := rfl

@[simp] theorem State.answered_slots (w : Word) : (s.answered w).slots = s.slots := rfl
@[simp] theorem State.answered_posMax (w : Word) : (s.answered w).posMax = s.posMax := rfl
@[simp] theorem State.answered_gpio (w : Word) : (s.answered w).gpio = s.gpio := rfl
@[simp] theorem State.answered_notPlain (w : Word) : (s.answered w).notPlain = s.notPlain := rfl
@[simp] theorem State.answered_cfgIn (w : Word) : (s.answered w).cfgIn = s.cfgIn := rfl
@[simp] theorem State.answered_inputs (w : Word) : (s.answered w).inputs = s.inputs := rfl
@[simp] theorem State.answered_responses (w : Word) : (s.answered w).responses = s.responses ++ [w] := rfl

@[simp] theorem State.externalWrite_slots (r : RegId) (v : Byte) : (s.externalWrite r v).slots = s.slots := rfl
@[simp] theorem State.externalWrite_posMax (r : RegId) (v : Byte) : (s.externalWrite r v).posMax = s.posMax := rfl
@[simp] theorem State.externalWrite_gpio (r : RegId) (v : Byte) : (s.externalWrite r v).gpio = s.gpio.write r v := rfl
@[simp] theorem State.externalWrite_notPlain (r : RegId) (v : Byte) : (s.externalWrite r v).notPlain = s.notPlain := rfl
@[simp] theorem State.externalWrite_cfgIn (r : RegId) (v : Byte) : (s.externalWrite r v).cfgIn = s.cfgIn := rfl
@[simp] theorem State.externalWrite_inputs (r : RegId) (v : Byte) : (s.externalWrite r v).inputs = s.inputs := rfl
@[simp] theorem State.externalWrite_responses (r : RegId) (v : Byte) : (s.externalWrite r v).responses = s.responses := rfl

@[simp] theorem State.resetBlock_slots : (s.resetBlock).slots = List.replicate s.slots.length Slot.reset := rfl
@[simp] theorem State.resetBlock_posMax : (s.resetBlock).posMax = s.posMax := rfl
@[simp] theorem State.resetBlock_gpio : (s.resetBlock).gpio = s.gpio := rfl
@[simp] theorem State.resetBlock_notPlain : (s.resetBlock).notPlain = s.notPlain := rfl
@[simp] theorem State.resetBlock_cfgIn : (s.resetBlock).cfgIn = s.cfgIn := rfl
@[simp] theorem State.resetBlock_inputs : (s.resetBlock).inputs = s.inputs := rfl
@[simp] theorem State.resetBlock_responses : (s.resetBlock).responses = s.responses := rfl

@[simp] theorem State.sample_slots (cfg : Bindings) (rest : List Input) : (s.sample cfg rest).slots = s.slots := rfl
@[simp] theorem State.sample_posMax (cfg : Bindings) (rest : List Input) : (s.sample cfg rest).posMax = s.posMax := rfl
@[simp] theorem State.sample_gpio (cfg : Bindings) (rest : List Input) : (s.sample cfg rest).gpio = s.gpio := rfl
@[simp] theorem State.sample_notPlain (cfg : Bindings) (rest : List Input) : (s.sample cfg rest).notPlain = s.notPlain := rfl
@[simp] theorem State.sample_cfgIn (cfg : Bindings) (rest : List Input) : (s.sample cfg rest).cfgIn = cfg := rfl
@[simp] theorem State.sample_inputs (cfg : Bindings) (rest : List Input) : (s.sample cfg rest).inputs = rest := rfl
@[simp] theorem State.sample_responses (cfg : Bindings) (rest : List Input) : (s.sample cfg rest).responses = s.responses := rfl

@[simp] theorem State.withInputs_slots (rest : List Input) : (s.withInputs rest).slots = s.slots := rfl
@[simp] theorem State.withInputs_posMax (rest : List Input) : (s.withInputs rest).posMax = s.posMax := rfl
@[simp] theorem State.withInputs_gpio (rest : List Input) : (s.withInputs rest).gpio = s.gpio := rfl
@[simp] theorem State.withInputs_notPlain (rest : List Input) : (s.withInputs rest).notPlain = s.notPlain := rfl
@[simp] theorem State.withInputs_cfgIn (rest : List Input) : (s.withInputs rest).cfgIn = s.cfgIn := rfl
@[simp] theorem State.withInputs_inputs (rest : List Input) : (s.withInputs rest).inputs = rest := rfl
@[simp] theorem State.withInputs_responses (rest : List Input) : (s.withInputs rest).responses = s.responses := rfl

/-! ### Bindings and constructed slots -/

@[simp] theorem get_dir (c : Bindings) : c.get .dir = c.dir := rfl
@[simp] theorem get_enable (c : Bindings) : c.get .enable = c.enable := rfl
@[simp] theorem get_step (c : Bindings) : c.get .step = c.step := rfl
@[simp] theorem get_ms1 (c : Bindings) : c.get .ms1 = c.ms1 := rfl
@[simp] theorem get_ms2 (c : Bindings) : c.get .ms2 = c.ms2 := rfl
@[simp] theorem get_ms3 (c : Bindings) : c.get .ms3 = c.ms3 := rfl

@[simp] theorem Slot.constructed_status (c : Bindings) (sp : Byte) : (Slot.constructed c sp).status = .active := rfl
@[simp] theorem Slot.constructed_bind (c : Bindings) (sp : Byte) : (Slot.constructed c sp).bind = c := rfl
@[simp] theorem Slot.constructed_speed (c : Bindings) (sp : Byte) : (Slot.constructed c sp).speed = sp := rfl
@[simp] theorem Slot.constructed_stepSize (c : Bindings) (sp : Byte) : (Slot.constructed c sp).stepSize = .full := rfl
@[simp] theorem Slot.constructed_desiredPos (c : Bindings) (sp : Byte) : (Slot.constructed c sp).desiredPos = 0#8 := rfl
@[simp] theorem Slot.constructed_dir (c : Bindings) (sp : Byte) : (Slot.constructed c sp).dir = .forward := rfl
@[simp] theorem Slot.reset_status : Slot.reset.status = .inactive := rfl
@[simp] theorem Slot.reset_desiredPos : Slot.reset.desiredPos = 0#8 := rfl

end Sys2Proof.Machine
end

