-- ==== Sys2Proof/Laws/Memory.lean ====
section
/-! SUPPORT. The laws of the GPIO register file: read after write, the canonical form is kept, canonical files with
equal reads are equal, and what each primitive does to one bit. -/

namespace Sys2Proof.Machine

/-! ### Canonical form -/

theorem Memory.wfFrom_mono {g : Memory} {lo lo' : Nat} (h : Memory.wfFrom lo g = true) (hl : lo' ≤ lo) :
    Memory.wfFrom lo' g = true := by
  cases g with
  | nil => rfl
  | cons c t =>
    simp only [Memory.wfFrom, Bool.and_eq_true, decide_eq_true_eq] at h ⊢
    exact ⟨⟨hl.trans h.1.1, h.1.2⟩, h.2⟩

theorem Memory.wfFrom_cons {t : Memory} {lo r : Nat} {v : Byte} (hlo : lo ≤ r) (h : Memory.wfFrom (r + 1) t = true) :
    Memory.wfFrom lo (Memory.cons r v t) = true := by
  unfold Memory.cons
  split
  · exact Memory.wfFrom_mono h (by omega)
  · simp_all [Memory.wfFrom]

theorem Memory.wfFrom_write {g : Memory} {lo r : Nat} {v : Byte} (hlo : lo ≤ r) (h : Memory.wfFrom lo g = true) :
    Memory.wfFrom lo (g.write r v) = true := by
  induction g generalizing lo with
  | nil => exact Memory.wfFrom_cons hlo rfl
  | cons c t ih =>
    obtain ⟨a, w⟩ := c
    simp only [Memory.wfFrom, Bool.and_eq_true, decide_eq_true_eq] at h
    simp only [Memory.write]
    split
    · simp only [Memory.wfFrom, Bool.and_eq_true, decide_eq_true_eq]
      exact ⟨h.1, ih (by omega) h.2⟩
    · split
      · subst_vars; exact Memory.wfFrom_cons hlo h.2
      · refine Memory.wfFrom_cons hlo ?_
        simp only [Memory.wfFrom, Bool.and_eq_true, decide_eq_true_eq]
        exact ⟨⟨by omega, h.1.2⟩, h.2⟩

/-- A write keeps the canonical form. -/
theorem Memory.wf_write {g : Memory} (r : Nat) (v : Byte) (h : g.wf = true) : (g.write r v).wf = true :=
  Memory.wfFrom_write (Nat.zero_le r) h

/-! ### Read after write -/

theorem Memory.read_below {g : Memory} {lo r : Nat} (h : Memory.wfFrom lo g = true) (hr : r < lo) :
    g.read r = Memory.unlisted r := by
  induction g generalizing lo with
  | nil => rfl
  | cons c t ih =>
    obtain ⟨a, w⟩ := c
    simp only [Memory.wfFrom, Bool.and_eq_true, decide_eq_true_eq] at h
    rw [Memory.read, if_neg (by omega), ih h.2 (by omega)]

theorem Memory.read_cons_of_wf {t : Memory} {r x : Nat} {v : Byte} (h : Memory.wfFrom (r + 1) t = true) :
    (Memory.cons r v t).read x = if r = x then v else t.read x := by
  unfold Memory.cons
  split
  · next hv =>
    split
    · next hx => subst hx; rw [hv, Memory.read_below h (by omega)]
    · rfl
  · rfl

theorem Memory.read_write_from {g : Memory} {lo r x : Nat} {v : Byte} (h : Memory.wfFrom lo g = true) :
    (g.write r v).read x = if r = x then v else g.read x := by
  induction g generalizing lo with
  | nil => exact Memory.read_cons_of_wf rfl
  | cons c t ih =>
    obtain ⟨a, w⟩ := c
    simp only [Memory.wfFrom, Bool.and_eq_true, decide_eq_true_eq] at h
    simp only [Memory.write]
    split
    · next ha =>
      simp only [Memory.read, ih h.2]
      by_cases hx : r = x
      · simp only [hx, if_true]
        rw [if_neg]; omega
      · simp [hx]
    · split
      · next ha =>
        subst ha
        rw [Memory.read_cons_of_wf h.2]
        by_cases hx : a = x <;> simp [Memory.read, hx]
      · rw [Memory.read_cons_of_wf]
        simp only [Memory.wfFrom, Bool.and_eq_true, decide_eq_true_eq]
        exact ⟨⟨by omega, h.1.2⟩, h.2⟩

/-- A read returns the value last written to its register, and a write leaves every other register alone
(20_memory.md R51). -/
theorem Memory.read_write {g : Memory} (r x : Nat) (v : Byte) (h : g.wf = true) :
    (g.write r v).read x = if r = x then v else g.read x :=
  Memory.read_write_from h

/-! ### Equal reads, equal files -/

theorem Memory.ext_from {g g' : Memory} {lo : Nat} (h : Memory.wfFrom lo g = true) (h' : Memory.wfFrom lo g' = true)
    (heq : ∀ r, g.read r = g'.read r) : g = g' := by
  induction g generalizing g' lo with
  | nil =>
    cases g' with
    | nil => rfl
    | cons c t =>
      obtain ⟨a, w⟩ := c
      simp only [Memory.wfFrom, Bool.and_eq_true, decide_eq_true_eq] at h'
      have := heq a
      simp only [Memory.read, if_true] at this
      exact absurd this.symm h'.1.2
  | cons c t ih =>
    obtain ⟨a, w⟩ := c
    simp only [Memory.wfFrom, Bool.and_eq_true, decide_eq_true_eq] at h
    cases g' with
    | nil =>
      have := heq a
      simp only [Memory.read, if_true] at this
      exact absurd this h.1.2
    | cons c' t' =>
      obtain ⟨a', w'⟩ := c'
      simp only [Memory.wfFrom, Bool.and_eq_true, decide_eq_true_eq] at h'
      have haa : a = a' := by
        rcases Nat.lt_trichotomy a a' with hlt | he | hgt
        · have := heq a
          simp only [Memory.read, if_true, if_neg (Nat.ne_of_gt hlt)] at this
          rw [Memory.read_below h'.2 (by omega)] at this
          exact absurd this h.1.2
        · exact he
        · have := heq a'
          simp only [Memory.read, if_true, if_neg (Nat.ne_of_gt hgt)] at this
          rw [Memory.read_below h.2 (by omega)] at this
          exact absurd this.symm h'.1.2
      subst haa
      have hw := heq a
      simp only [Memory.read, if_true] at hw
      subst hw
      congr 1
      refine ih h.2 h'.2 fun r => ?_
      by_cases hr : a = r
      · subst hr; rw [Memory.read_below h.2 (by omega), Memory.read_below h'.2 (by omega)]
      · have := heq r; simpa only [Memory.read, if_neg hr] using this

/-- Canonical register files that read alike are equal data. -/
theorem Memory.ext_read {g g' : Memory} (h : g.wf = true) (h' : g'.wf = true) (heq : ∀ r, g.read r = g'.read r) :
    g = g' :=
  Memory.ext_from h h' heq

/-- Writing back what is there changes nothing. -/
theorem Memory.write_read_self {g : Memory} (r : Nat) (h : g.wf = true) : g.write r (g.read r) = g :=
  Memory.ext_read (Memory.wf_write r _ h) h fun x => by
    rw [Memory.read_write r x _ h]; split
    · next hx => rw [hx]
    · rfl

/-! ### The primitives keep the canonical form -/

theorem wf_pinSet {g : Memory} (b : PinBinding) (h : g.wf = true) : (pinSet b g).wf = true := Memory.wf_write _ _ h

theorem wf_pinClear {g : Memory} (b : PinBinding) (h : g.wf = true) : (pinClear b g).wf = true := Memory.wf_write _ _ h

theorem wf_pinWrite {g : Memory} (b : PinBinding) (v : Bool) (h : g.wf = true) : (pinWrite b v g).wf = true := by
  unfold pinWrite; split
  · exact wf_pinSet b h
  · exact wf_pinClear b h

theorem wf_ddrOutput {g : Memory} (b : PinBinding) (h : g.wf = true) : (ddrOutput b g).wf = true := Memory.wf_write _ _ h

theorem wf_initLine {g : Memory} (b : PinBinding) (h : g.wf = true) : (initLine b g).wf = true :=
  wf_ddrOutput b (wf_pinClear b h)

theorem wf_initLines {g : Memory} (c : Bindings) (h : g.wf = true) : (initLines c g).wf = true := by
  simp only [initLines, roleOrder, List.foldl_cons, List.foldl_nil]
  exact wf_initLine _ (wf_initLine _ (wf_initLine _ (wf_initLine _ (wf_initLine _ (wf_initLine _ h)))))

theorem wf_msWrite {g : Memory} (c : Bindings) (m : MsLines) (h : g.wf = true) : (msWrite c m g).wf = true :=
  wf_pinWrite _ _ (wf_pinWrite _ _ (wf_pinWrite _ _ h))

/-! ### One bit -/

theorem bitOf_write {g : Memory} (r x : Nat) (v : Byte) (k : Nat) (h : g.wf = true) :
    bitOf (g.write r v) x k = if r = x then v.getLsbD k else bitOf g x k := by
  simp only [bitOf, Memory.read_write r x v h]; split <;> rfl

/-- `PinSet` sets the bits of its area and leaves every other bit (20_memory.md R53). -/
theorem bitOf_pinSet {g : Memory} (b : PinBinding) (x : Nat) (k : Nat) (h : g.wf = true) :
    bitOf (pinSet b g) x k = if (portArea b).covers x k then true else bitOf g x k := by
  rw [pinSet, bitOf_write _ _ _ _ h]
  by_cases hx : b.port = x
  · subst hx; cases hk : b.mask.getLsbD k <;> simp [Area.covers, portArea, bitOf, hk]
  · simp [Area.covers, portArea, hx]

/-- `PinClear` clears the bits of its area and leaves every other bit (20_memory.md R53). -/
theorem bitOf_pinClear {g : Memory} (b : PinBinding) (x : Nat) (k : Nat) (h : g.wf = true) :
    bitOf (pinClear b g) x k = if (portArea b).covers x k then false else bitOf g x k := by
  rw [pinClear, bitOf_write _ _ _ _ h]
  by_cases hx : b.port = x
  · subst hx
    by_cases h8 : k < 8
    · cases hk : b.mask.getLsbD k <;> simp [Area.covers, portArea, bitOf, hk, h8, Bool.and_comm]
    · have := BitVec.getLsbD_of_ge b.mask k (by omega)
      have := BitVec.getLsbD_of_ge (Memory.read g b.port) k (by omega)
      simp_all [Area.covers, portArea, bitOf]
  · simp [Area.covers, portArea, hx]

/-- `PinWrite` gives the bits of its area the value and leaves every other bit (20_memory.md R54). -/
theorem bitOf_pinWrite {g : Memory} (b : PinBinding) (v : Bool) (x : Nat) (k : Nat) (h : g.wf = true) :
    bitOf (pinWrite b v g) x k = if (portArea b).covers x k then v else bitOf g x k := by
  cases v
  · exact bitOf_pinClear b x k h
  · exact bitOf_pinSet b x k h

/-- `DdrOutput` sets the bits of its area and leaves every other bit (20_memory.md R55). -/
theorem bitOf_ddrOutput {g : Memory} (b : PinBinding) (x : Nat) (k : Nat) (h : g.wf = true) :
    bitOf (ddrOutput b g) x k = if (ddrArea b).covers x k then true else bitOf g x k := by
  rw [ddrOutput, bitOf_write _ _ _ _ h]
  by_cases hx : b.ddr = x
  · subst hx; cases hk : b.mask.getLsbD k <;> simp [Area.covers, ddrArea, bitOf, hk]
  · simp [Area.covers, ddrArea, hx]

/-- One line of the initialisation sequence: the data-direction bits are set, then of the remaining bits the
data-register bits are clear (40_pool.md R111). -/
theorem bitOf_initLine {g : Memory} (b : PinBinding) (x : Nat) (k : Nat) (h : g.wf = true) :
    bitOf (initLine b g) x k =
      if (ddrArea b).covers x k then true else if (portArea b).covers x k then false else bitOf g x k := by
  rw [initLine, bitOf_ddrOutput b x k (wf_pinClear b h), bitOf_pinClear b x k h]

/-- The three writes of SETSTEP: the last of MS1, MS2, MS3 that covers a bit decides it (41_motor_control.md R123;
20_memory.md R57). -/
theorem bitOf_msWrite {g : Memory} (c : Bindings) (m : MsLines) (x : Nat) (k : Nat) (h : g.wf = true) :
    bitOf (msWrite c m g) x k =
      if (portArea c.ms3).covers x k then m.ms3 else if (portArea c.ms2).covers x k then m.ms2
      else if (portArea c.ms1).covers x k then m.ms1 else bitOf g x k := by
  rw [msWrite, bitOf_pinWrite _ _ _ _ (wf_pinWrite _ _ (wf_pinWrite _ _ h)), bitOf_pinWrite _ _ _ _ (wf_pinWrite _ _ h),
    bitOf_pinWrite _ _ _ _ h]

end Sys2Proof.Machine
end

