-- ==== Sys2Proof/Laws/Operands.lean ====
section
/-! SUPPORT. What the handle check and the slot scan answer, and what the shared template does. -/

namespace Sys2Proof.Machine

/-! ### The handle check (41_motor_control.md R120) -/

theorem State.resolve_eq_some_iff (s : State) (h : Nat) (sl : Slot) : s.resolve h = some sl ↔ s.Holds h sl := by
  unfold State.resolve State.Holds
  split
  · split
    · next hs ha => simp only [hs, Option.some.injEq]; constructor
                    · rintro rfl; exact ⟨rfl, ha⟩
                    · exact fun hh => hh.1
    · next hs ha => simp only [hs, Option.some.injEq, reduceCtorEq, false_iff, not_and]
                    rintro rfl; exact ha
  · next hs => simp [hs]

theorem State.resolve_eq_none_iff (s : State) (h : Nat) : s.resolve h = none ↔ s.Invalid h := by
  unfold State.resolve State.Invalid
  split
  · next sl hs =>
    cases hst : sl.status <;> simp_all
  · next hs => simp [hs]

/-- On a valid handle the template goes on with the slot. -/
theorem State.onActive_of_holds {s : State} {h : Nat} {sl : Slot} (hh : s.Holds h sl) (k : Slot → State) :
    s.onActive h k = k sl := by
  rw [State.onActive, (s.resolve_eq_some_iff h sl).2 hh]

/-- On an invalid handle the template answers HandleInvalid. -/
theorem State.onActive_of_invalid {s : State} {h : Nat} (hh : s.Invalid h) (k : Slot → State) :
    s.onActive h k = s.raise .handleInvalid := by
  rw [State.onActive, (s.resolve_eq_none_iff h).2 hh]

/-- Everything the template can do. -/
theorem State.onActive_cases (s : State) (h : Nat) (k : Slot → State) :
    (∃ sl, s.Holds h sl ∧ s.onActive h k = k sl) ∨ (s.Invalid h ∧ s.onActive h k = s.raise .handleInvalid) := by
  cases hr : s.resolve h with
  | some sl =>
    have hh := (s.resolve_eq_some_iff h sl).1 hr
    exact .inl ⟨sl, hh, State.onActive_of_holds hh k⟩
  | none =>
    have hh := (s.resolve_eq_none_iff h).1 hr
    exact .inr ⟨hh, State.onActive_of_invalid hh k⟩

theorem State.Holds.lt {s : State} {h : Nat} {sl : Slot} (hh : s.Holds h sl) : h < s.slots.length :=
  (List.getElem?_eq_some_iff.1 hh.1).1

theorem State.Holds.mem {s : State} {h : Nat} {sl : Slot} (hh : s.Holds h sl) : sl ∈ s.slots :=
  List.mem_of_getElem? hh.1

/-! ### The slot scan (40_pool.md R110) -/

theorem leastInactive_eq_some_iff (l : List Slot) (i : Nat) :
    leastInactive l = some i ↔
      (∃ sl, l[i]? = some sl ∧ sl.status = .inactive) ∧ ∀ j, j < i → ∃ sl, l[j]? = some sl ∧ sl.status = .active := by
  induction l generalizing i with
  | nil => simp [leastInactive]
  | cons a t ih =>
    unfold leastInactive
    cases ha : a.status with
    | inactive =>
      simp only [if_true, Option.some.injEq]
      constructor
      · rintro rfl; exact ⟨⟨a, rfl, ha⟩, fun j hj => absurd hj (by omega)⟩
      · rintro ⟨-, hlt⟩
        by_contra hne
        obtain ⟨sl, h0, h1⟩ := hlt 0 (by omega)
        simp only [List.getElem?_cons_zero, Option.some.injEq] at h0
        subst h0; rw [ha] at h1; exact absurd h1 (by decide)
    | active =>
      cases i with
      | zero => simp [ha]
      | succ i =>
        simp only [reduceCtorEq, if_false, Option.map_eq_some_iff, Nat.add_right_cancel_iff, exists_eq_right, ih,
          List.getElem?_cons_succ]
        refine and_congr_right fun _ => ⟨fun hlt j hj => ?_, fun hlt j hj => ?_⟩
        · cases j with
          | zero => exact ⟨a, rfl, ha⟩
          | succ j => simpa using hlt j (by omega)
        · simpa using hlt (j + 1) (by omega)

theorem leastInactive_eq_none_iff (l : List Slot) : leastInactive l = none ↔ ∀ sl ∈ l, sl.status = .active := by
  induction l with
  | nil => simp [leastInactive]
  | cons a t ih =>
    unfold leastInactive
    cases ha : a.status <;> simp [ha, ih]

theorem State.Allocates.lt {s : State} {i : Nat} (h : s.Allocates i) : i < s.slots.length := by
  obtain ⟨⟨sl, h1, -⟩, -⟩ := h
  exact (List.getElem?_eq_some_iff.1 h1).1

/-! ### Plain bindings (20_memory.md R51) -/

theorem bindingsPlain_nil (c : Bindings) : bindingsPlain [] c = true := by
  simp [bindingsPlain, roleOrder]

end Sys2Proof.Machine
end

