-- ==== Sys2Proof/Laws/Exec.lean ====
section
/-! SUPPORT. Everything one command and one step can do, said once: later proofs cite these and do not unfold the
meanings. -/

namespace Sys2Proof.Machine

/-- Everything CONSTRUCT can answer with a next state (40_pool.md R110). -/
theorem execConstruct_cases {speed : Byte} {s t : State} (h : execConstruct speed s = .next t) :
    ((∀ sl ∈ s.slots, sl.status = .active) ∧ t = s.raise .poolExhausted) ∨
      ∃ i, s.Allocates i ∧ bindingsPlain s.notPlain s.cfgIn = true ∧
        t = ((s.setSlot i (Slot.constructed s.cfgIn speed)).setGpio (initLines s.cfgIn s.gpio)).respond .ok (zext8 i) := by
  unfold execConstruct at h
  split at h
  · next hn => exact .inl ⟨(leastInactive_eq_none_iff _).1 hn, by injection h with h; exact h.symm⟩
  · next i hi =>
    split at h
    · next hp => exact .inr ⟨i, (leastInactive_eq_some_iff _ _).1 hi, hp, by injection h with h; exact h.symm⟩
    · cases h

/-- Everything DESTRUCT can do (40_pool.md R113). -/
theorem execDestruct_cases {h : Nat} {s t : State} (he : execDestruct h s = .next t) :
    (∃ sl, s.slots[h]? = some sl ∧ t = (s.setSlot h { sl with status := .inactive }).respond .ok 0#8) ∨
      (s.slots[h]? = none ∧ t = s.respond .ok 0#8) := by
  unfold execDestruct at he
  split at he
  · next sl hs => exact .inl ⟨sl, hs, by injection he with h; exact h.symm⟩
  · next hs => exact .inr ⟨hs, by injection he with h; exact h.symm⟩

/-- CONSTRUCT with an Inactive slot left, on plain registers (40_pool.md R110). -/
theorem exec_construct_of_allocates {speed : Byte} {s : State} {i : Nat} (ha : s.Allocates i)
    (hp : bindingsPlain s.notPlain s.cfgIn = true) :
    exec (.construct speed) s =
      .next (((s.setSlot i (Slot.constructed s.cfgIn speed)).setGpio (initLines s.cfgIn s.gpio)).respond .ok (zext8 i)) := by
  simp only [exec, execConstruct, (leastInactive_eq_some_iff _ _).2 ha, hp, if_true]

/-- DESTRUCT of an existing slot (40_pool.md R113). -/
theorem exec_destruct_of_some {s : State} {h : Nat} {sl : Slot} (hs : s.slots[h]? = some sl) :
    exec (.destruct h) s = .next ((s.setSlot h { sl with status := .inactive }).respond .ok 0#8) := by
  simp only [exec, execDestruct, hs]

/-- DESTRUCT out of range (40_pool.md R113). -/
theorem exec_destruct_of_none {s : State} {h : Nat} (hs : s.slots[h]? = none) :
    exec (.destruct h) s = .next (s.respond .ok 0#8) := by
  simp only [exec, execDestruct, hs]

/-- The state a motor command goes on to on a valid handle whose slot is `sl` (41_motor_control.md R121 to R129). -/
def motorResult : Instr → Slot → State → State
  | .construct _, _, s     => s
  | .destruct _, _, s      => s
  | .setspeed h v, sl, s   => (s.setSlot h { sl with speed := v }).respond .ok 0#8
  | .getspeed _, sl, s     => s.respond .ok sl.speed
  | .setstep h z, sl, s    =>
    ((s.setGpio (msWrite sl.bind (encMs z) s.gpio)).setSlot h { sl with stepSize := z }).respond .ok 0#8
  | .getstep _, sl, s      => s.respond .ok (zext8 sl.stepSize.code)
  | .setpos h v, sl, s     =>
    if s.posMax.toNat < v.toNat then s.raise .positionInvalid
    else (s.setSlot h { sl with desiredPos := v }).respond .ok 0#8
  | .getpos _, sl, s       => s.respond .ok sl.desiredPos
  | .setdir h d, sl, s     =>
    ((s.setSlot h { sl with dir := d }).setGpio (pinWrite sl.bind.dir (encDir d) s.gpio)).respond .ok 0#8
  | .getdir _, sl, s       => s.respond .ok (zext8 sl.dir.code)
  | .step _, sl, s         => (s.setGpio (pinSet sl.bind.step s.gpio)).respond .ok 0#8

/-- A motor command is the template with its own result. -/
theorem exec_motor {i : Instr} {h : Nat} (hi : i.checkedHandle? = some h) (s : State) :
    exec i s = .next (s.onActive h fun sl => motorResult i sl s) := by
  cases i <;> simp only [Instr.checkedHandle?, Option.some.injEq, reduceCtorEq] at hi <;> subst hi <;> rfl

theorem exec_motor_of_holds {i : Instr} {h : Nat} (hi : i.checkedHandle? = some h) {s : State} {sl : Slot}
    (hh : s.Holds h sl) : exec i s = .next (motorResult i sl s) := by
  rw [exec_motor hi, State.onActive_of_holds hh]

theorem exec_motor_of_invalid {i : Instr} {h : Nat} (hi : i.checkedHandle? = some h) {s : State} (hh : s.Invalid h) :
    exec i s = .next (s.raise .handleInvalid) := by
  rw [exec_motor hi, State.onActive_of_invalid hh]

/-- Everything a command can do when it answers a next state. -/
theorem exec_cases {i : Instr} {s t : State} (he : exec i s = .next t) :
    (∃ speed, i = .construct speed ∧ execConstruct speed s = .next t) ∨
      (∃ h, i = .destruct h ∧ execDestruct h s = .next t) ∨
      ∃ h, i.checkedHandle? = some h ∧
        ((∃ sl, s.Holds h sl ∧ t = motorResult i sl s) ∨ (s.Invalid h ∧ t = s.raise .handleInvalid)) := by
  cases hm : i.checkedHandle? with
  | none =>
    cases i <;> simp only [Instr.checkedHandle?, reduceCtorEq] at hm
    · exact .inl ⟨_, rfl, he⟩
    · exact .inr (.inl ⟨_, rfl, he⟩)
  | some h =>
    refine .inr (.inr ⟨h, rfl, ?_⟩)
    rw [exec_motor hm] at he
    injection he with he
    rcases State.onActive_cases s h fun sl => motorResult i sl s with ⟨sl, hh, ho⟩ | ⟨hh, ho⟩
    · exact .inl ⟨sl, hh, by rw [← he, ho]⟩
    · exact .inr ⟨hh, by rw [← he, ho]⟩

/-- Everything a step can do when it answers a next state (10_state.md R20). -/
theorem step_cases {s t : State} (h : step s = .next t) :
    (s.inputs = [] ∧ t = s) ∨
      (∃ w cfg rest i, s.inputs = .command w cfg :: rest ∧ decode w = .ok i ∧ exec i (s.sample cfg rest) = .next t) ∨
      (∃ w cfg rest e, s.inputs = .command w cfg :: rest ∧ decode w = .error e ∧ t = (s.sample cfg rest).illegalCommand) ∨
      (∃ r v rest, s.inputs = .external r v :: rest ∧ t = (s.withInputs rest).externalWrite r v) ∨
      ∃ rest, s.inputs = .reset :: rest ∧ t = (s.withInputs rest).resetBlock := by
  unfold step at h
  split at h
  · next hs => exact .inl ⟨hs, by injection h with h; exact h.symm⟩
  · next w cfg rest hs =>
    split at h
    · next i hd => exact .inr (.inl ⟨w, cfg, rest, i, hs, hd, h⟩)
    · next e hd => exact .inr (.inr (.inl ⟨w, cfg, rest, e, hs, hd, by injection h with h; exact h.symm⟩))
  · next r v rest hs => exact .inr (.inr (.inr (.inl ⟨r, v, rest, hs, by injection h with h; exact h.symm⟩)))
  · next rest hs => exact .inr (.inr (.inr (.inr ⟨rest, hs, by injection h with h; exact h.symm⟩)))

end Sys2Proof.Machine
end

