-- ==== Sys2Proof/Laws/Open.lean ====
section
/-! SUPPORT. The block over any parameters (Machine/Open.lean): one lemma per field per update, and what each primitive,
lookup and scan does to matching boards. -/

namespace Sys2Proof.Open

variable {R : Type}

/-! ### Fields -/

section Fields

variable (s : Board R)

@[simp] theorem Board.respond_slots (c : Machine.ResultCode) (d : Byte) : (s.respond c d).slots = s.slots := rfl
@[simp] theorem Board.respond_gpio (c : Machine.ResultCode) (d : Byte) : (s.respond c d).gpio = s.gpio := rfl
@[simp] theorem Board.respond_responses (c : Machine.ResultCode) (d : Byte) :
    (s.respond c d).responses = s.responses ++ [Machine.responseWord c d] := rfl
@[simp] theorem Board.setSlot_slots (h : Nat) (sl : Slot R) : (s.setSlot h sl).slots = s.slots.set h sl := rfl
@[simp] theorem Board.setSlot_gpio (h : Nat) (sl : Slot R) : (s.setSlot h sl).gpio = s.gpio := rfl
@[simp] theorem Board.setSlot_responses (h : Nat) (sl : Slot R) : (s.setSlot h sl).responses = s.responses := rfl

@[simp] theorem numberWiring_get (ρ : R → RegId) (c : Wiring R) (L : LineRole) :
    (numberWiring ρ c).get L = (c L).number ρ := by cases L <;> rfl

/-- Both registers of every line are registers of the configuration. -/
theorem mem_registersOf (c : Wiring R) (L : LineRole) : (c L).port ∈ registersOf c ∧ (c L).ddr ∈ registersOf c := by
  cases L <;> simp [registersOf, Machine.roleOrder]

end Fields

/-! ### The register file -/

section File

variable [DecidableEq R] {p : Params R} {ρ : R → RegId} {rs : List R} {g : R → Byte} {m : Machine.Memory}

/-- A write of a register of `rs` keeps two files matching. -/
theorem FileMatches.write (hρ : NumbersApart ρ rs) (h : FileMatches p ρ rs g m) {r : R} (hr : r ∈ rs) (v : Byte) :
    FileMatches p ρ rs (Function.update g r v) (m.write (ρ r) v) where
  canonical := Machine.Memory.wf_write _ _ h.canonical
  named x hx := by
    rw [Machine.Memory.read_write _ _ _ h.canonical, Function.update_apply]
    by_cases he : x = r
    · simp [he]
    · rw [if_neg fun e => he (hρ r hr x hx e).symm, if_neg he, h.named x hx]
  unnamed x hx := by
    rw [Function.update_of_ne fun e : x = r => hx (e ▸ hr), h.unnamed x hx]

theorem FileMatches.pinSet (hρ : NumbersApart ρ rs) (h : FileMatches p ρ rs g m) {b : Pin R} (hb : b.port ∈ rs) :
    FileMatches p ρ rs (Open.pinSet b g) (Machine.pinSet (b.number ρ) m) := by
  rw [Machine.pinSet, show m.read (b.number ρ).port = g b.port from h.named _ hb]
  exact h.write hρ hb (g b.port ||| b.mask)

theorem FileMatches.pinClear (hρ : NumbersApart ρ rs) (h : FileMatches p ρ rs g m) {b : Pin R} (hb : b.port ∈ rs) :
    FileMatches p ρ rs (Open.pinClear b g) (Machine.pinClear (b.number ρ) m) := by
  rw [Machine.pinClear, show m.read (b.number ρ).port = g b.port from h.named _ hb]
  exact h.write hρ hb (g b.port &&& ~~~b.mask)

theorem FileMatches.pinWrite (hρ : NumbersApart ρ rs) (h : FileMatches p ρ rs g m) {b : Pin R} (hb : b.port ∈ rs) (v : Bool) :
    FileMatches p ρ rs (Open.pinWrite b v g) (Machine.pinWrite (b.number ρ) v m) := by
  cases v
  · exact h.pinClear hρ hb
  · exact h.pinSet hρ hb

theorem FileMatches.ddrOutput (hρ : NumbersApart ρ rs) (h : FileMatches p ρ rs g m) {b : Pin R} (hb : b.ddr ∈ rs) :
    FileMatches p ρ rs (Open.ddrOutput b g) (Machine.ddrOutput (b.number ρ) m) := by
  rw [Machine.ddrOutput, show m.read (b.number ρ).ddr = g b.ddr from h.named _ hb]
  exact h.write hρ hb (g b.ddr ||| b.mask)

/-- The initialisation sequence, over any list of roles, keeps two files matching. -/
theorem FileMatches.initLines (hρ : NumbersApart ρ rs) (h : FileMatches p ρ rs g m) {c : Wiring R}
    (hc : ∀ r ∈ registersOf c, r ∈ rs) :
    FileMatches p ρ rs (Open.initLines c g) (Machine.initLines (numberWiring ρ c) m) := by
  unfold Open.initLines Machine.initLines
  induction Machine.roleOrder generalizing g m with
  | nil => exact h
  | cons L t ih =>
    rw [List.foldl_cons, List.foldl_cons, numberWiring_get]
    exact ih ((h.pinClear hρ (hc _ (mem_registersOf c L).1)).ddrOutput hρ (hc _ (mem_registersOf c L).2))

end File

/-! ### Lookups -/

section Slots

variable {ρ : R → RegId} {rs : List R} {l : List (Slot R)} {l' : List Machine.Slot}

/-- Matching lists of slots have matching slots at every index. -/
theorem slots_getElem? (h : List.Forall₂ (Slot.Matches ρ rs) l l') (j : Nat) :
    (l[j]? = none ∧ l'[j]? = none) ∨ ∃ a b, l[j]? = some a ∧ l'[j]? = some b ∧ Slot.Matches ρ rs a b := by
  induction h generalizing j with
  | nil => exact .inl ⟨rfl, rfl⟩
  | cons hab _ ih =>
    cases j with
    | zero => exact .inr ⟨_, _, rfl, rfl, hab⟩
    | succ j => simpa using ih j

/-- Writing matching slots keeps two lists matching. -/
theorem slots_set (h : List.Forall₂ (Slot.Matches ρ rs) l l') (j : Nat) {a : Slot R} {b : Machine.Slot}
    (hab : Slot.Matches ρ rs a b) : List.Forall₂ (Slot.Matches ρ rs) (l.set j a) (l'.set j b) := by
  induction h generalizing j with
  | nil => exact .nil
  | cons hcd ht ih =>
    cases j with
    | zero => exact .cons hab ht
    | succ j => exact .cons hcd (ih j)

/-- The two scans find the same slot (40_pool.md R110). -/
theorem findIdx?_eq_leastInactive (h : List.Forall₂ (Slot.Matches ρ rs) l l') :
    l.findIdx? (fun sl => sl.status = .inactive) = Machine.leastInactive l' := by
  induction h with
  | nil => rfl
  | @cons a _ _ _ hab _ ih =>
    rw [List.findIdx?_cons, Machine.leastInactive, ih, hab.status]
    by_cases ha : a.status = .inactive <;> simp [ha]

/-- Slots made Inactive match whatever they hold (10_state.md R35). -/
theorem Slot.matches_of_inactive {a : Slot R} {b : Machine.Slot} (ha : a.status = .inactive) (hb : b.status = .inactive) :
    Slot.Matches ρ rs a b where
  status := by rw [ha, hb]
  fields h := by rw [ha] at h; cases h
  named h := by rw [ha] at h; cases h

end Slots

end Sys2Proof.Open
end

