-- ==== Sys2Proof/Laws/PerInstr.lean ====
section
/-! SUPPORT. Statements made per instruction.  `OpcodeRow`: the word of a command has the match value of its row of the
opcode table under the row's mask (30_encoding.md R83). -/

namespace Sys2Proof.Laws.OpcodeRow

/-- The mask of a command's row of the opcode table. -/
def rowMask : Instr → Word
  | .construct _  => 0xFF00#16
  | .destruct _   => 0xF0FF#16
  | .setspeed _ _ => 0xF000#16
  | .getspeed _   => 0xF0FF#16
  | .setstep _ _  => 0xF0F8#16
  | .getstep _    => 0xF0FF#16
  | .setpos _ _   => 0xF000#16
  | .getpos _     => 0xF0FF#16
  | .setdir _ _   => 0xF0FE#16
  | .getdir _     => 0xF0FF#16
  | .step _       => 0xF0FF#16

/-- The match value of a command's row of the opcode table. -/
def rowMatch : Instr → Word
  | .construct _  => 0x1000#16
  | .destruct _   => 0x2000#16
  | .setspeed _ _ => 0x3000#16
  | .getspeed _   => 0x4000#16
  | .setstep _ _  => 0x5000#16
  | .getstep _    => 0x6000#16
  | .setpos _ _   => 0x7000#16
  | .getpos _     => 0x8000#16
  | .setdir _ _   => 0x9000#16
  | .getdir _     => 0xA000#16
  | .step _       => 0xB000#16

/-- The word of a command lies in its row. -/
def Statement (i : Instr) : Prop := encode i &&& rowMask i = rowMatch i

/-- A field word under a mask, for every value of its handle field. -/
theorem under_mask (op : BitVec 4) (b : Byte) (m v : Word) (hv : ∀ h : BitVec 4, commandWord op h b &&& m = v) (n : Nat) :
    commandWord op (BitVec.ofNat 4 n) b &&& m = v :=
  hv _

theorem construct (speed : Byte) : Statement (.construct speed) :=
  commandWord_and_FF00 0x1#4 0#4 speed

theorem destruct (h : Nat) : Statement (.destruct h) :=
  under_mask 0x2#4 0#8 0xF0FF#16 0x2000#16 (by decide) h

theorem setspeed (h : Nat) (speed : Byte) : Statement (.setspeed h speed) :=
  commandWord_and_F000 0x3#4 (BitVec.ofNat 4 h) speed

theorem getspeed (h : Nat) : Statement (.getspeed h) :=
  under_mask 0x4#4 0#8 0xF0FF#16 0x4000#16 (by decide) h

theorem setstep (h : Nat) (size : StepSize) : Statement (.setstep h size) := by
  cases size
  · exact under_mask 0x5#4 0#8 0xF0F8#16 0x5000#16 (by decide) h
  · exact under_mask 0x5#4 1#8 0xF0F8#16 0x5000#16 (by decide) h
  · exact under_mask 0x5#4 2#8 0xF0F8#16 0x5000#16 (by decide) h
  · exact under_mask 0x5#4 3#8 0xF0F8#16 0x5000#16 (by decide) h
  · exact under_mask 0x5#4 4#8 0xF0F8#16 0x5000#16 (by decide) h

theorem getstep (h : Nat) : Statement (.getstep h) :=
  under_mask 0x6#4 0#8 0xF0FF#16 0x6000#16 (by decide) h

theorem setpos (h : Nat) (pos : Byte) : Statement (.setpos h pos) :=
  commandWord_and_F000 0x7#4 (BitVec.ofNat 4 h) pos

theorem getpos (h : Nat) : Statement (.getpos h) :=
  under_mask 0x8#4 0#8 0xF0FF#16 0x8000#16 (by decide) h

theorem setdir (h : Nat) (d : Direction) : Statement (.setdir h d) := by
  cases d
  · exact under_mask 0x9#4 0#8 0xF0FE#16 0x9000#16 (by decide) h
  · exact under_mask 0x9#4 1#8 0xF0FE#16 0x9000#16 (by decide) h

theorem getdir (h : Nat) : Statement (.getdir h) :=
  under_mask 0xA#4 0#8 0xF0FF#16 0xA000#16 (by decide) h

theorem step (h : Nat) : Statement (.step h) :=
  under_mask 0xB#4 0#8 0xF0FF#16 0xB000#16 (by decide) h

end Sys2Proof.Laws.OpcodeRow
end

