-- ==== Sys2Proof/Laws/Wiring.lean ====
section
/-! SUPPORT. Areas that share no bit, the level of a line in terms of its two bits, and what it takes for a slot's lines to
be shown (10_state.md R32 to R34). -/

namespace Sys2Proof.Machine

/-! ### Areas -/

/-- Two bytes share no bit. -/
theorem byte_and_eq_zero_iff (a b : Byte) :
    a &&& b = 0#8 ↔ ∀ k, k < 8 → ¬(a.getLsbD k = true ∧ b.getLsbD k = true) := by
  constructor
  · intro h k hk ⟨h1, h2⟩
    have := congrArg (·.getLsbD k) h
    simp [h1, h2] at this
  · intro h
    apply BitVec.eq_of_getLsbD_eq
    intro k hk
    have := h k hk
    cases h1 : a.getLsbD k <;> cases h2 : b.getLsbD k <;> simp_all

theorem Area.covers_iff {a : Area} {r : RegId} {k : Nat} : a.covers r k = true ↔ a.reg = r ∧ a.mask.getLsbD k = true := by
  simp [Area.covers]

/-- An area covers bits 0 to 7 only. -/
theorem Area.lt_of_covers {a : Area} {r : RegId} {k : Nat} (h : a.covers r k = true) : k < 8 := by
  by_contra hk
  have := BitVec.getLsbD_of_ge a.mask k (by omega)
  simp_all [Area.covers_iff]

/-- A bit of one area is no bit of an area apart from it. -/
theorem Area.Apart.covers_eq_false {a b : Area} (h : a.Apart b) {r : RegId} {k : Nat} (h1 : a.covers r k = true) :
    b.covers r k = false := by
  rw [Bool.eq_false_iff]
  intro h2
  have hk := Area.lt_of_covers h1
  rw [Area.covers_iff] at h1 h2
  exact (byte_and_eq_zero_iff _ _).1 (h (h1.1.trans h2.1.symm)) k hk ⟨h1.2, h2.2⟩

theorem Area.Apart.symm {a b : Area} (h : a.Apart b) : b.Apart a := fun e => by rw [BitVec.and_comm]; exact h e.symm

theorem portArea_covers_own (b : PinBinding) {k : Nat} (h : b.mask.getLsbD k = true) :
    (portArea b).covers b.port k = true := by simp [Area.covers, portArea, h]

theorem ddrArea_covers_own (b : PinBinding) {k : Nat} (h : b.mask.getLsbD k = true) :
    (ddrArea b).covers b.ddr k = true := by simp [Area.covers, ddrArea, h]

/-- Every line role is in the role order. -/
theorem mem_roleOrder (L : LineRole) : L ∈ roleOrder := by cases L <;> decide

theorem linesApart_symm {c d : Bindings} (h : c.LinesApart d) : d.LinesApart c := fun L hL M hM =>
  ⟨(h M hM L hL).1.symm, (h M hM L hL).2.2, (h M hM L hL).2.1⟩

/-! ### Levels -/

/-- A line is driven at `v` exactly when its data-direction bit is 1 and its data-register bit is `v`. -/
theorem level_eq_drive_iff {g : Memory} {b : PinBinding} {k : Nat} {v : Bool} :
    level g b k = .drive v ↔ bitOf g b.ddr k = true ∧ bitOf g b.port k = v := by
  unfold level bitOf; split <;> simp_all

theorem level_ne_undriven_iff {g : Memory} {b : PinBinding} {k : Nat} :
    level g b k ≠ .undriven ↔ bitOf g b.ddr k = true := by
  unfold level bitOf; split <;> simp_all

/-- A slot's lines are shown, in terms of bits. -/
theorem Slot.linesShown_iff {g : Memory} {sl : Slot} :
    sl.LinesShown g ↔ ∀ L k, k < 8 → (sl.bind.get L).mask.getLsbD k = true →
      bitOf g (sl.bind.get L).ddr k = true ∧ ∀ v ∈ sl.shows L, bitOf g (sl.bind.get L).port k = v := by
  constructor
  · intro h L k h8 hm
    obtain ⟨h1, h2⟩ := h L (mem_roleOrder L) k h8 hm
    exact ⟨level_ne_undriven_iff.1 h1, fun v hv => (level_eq_drive_iff.1 (h2 v hv)).2⟩
  · intro h L _ k h8 hm
    obtain ⟨h1, h2⟩ := h L k h8 hm
    exact ⟨level_ne_undriven_iff.2 h1, fun v hv => level_eq_drive_iff.2 ⟨h1, h2 v hv⟩⟩

/-! ### Slots that a handle names -/

/-- An Active slot of the pool is named by some handle. -/
theorem State.exists_holds {s : State} {sl : Slot} (hm : sl ∈ s.slots) (ha : sl.status = .active) : ∃ j, s.Holds j sl := by
  obtain ⟨j, hj⟩ := List.getElem?_of_mem hm
  exact ⟨j, hj, ha⟩

/-- After one slot is written, a handle names the new slot or what it named before. -/
theorem State.Holds.of_set {s t : State} {k j : Nat} {new b : Slot} (hk : k < s.slots.length)
    (ht : t.slots = s.slots.set k new) (hj : t.Holds j b) : (j = k ∧ b = new) ∨ (j ≠ k ∧ s.Holds j b) := by
  obtain ⟨h1, h2⟩ := hj
  rw [ht] at h1
  by_cases hjk : j = k
  · subst hjk
    rw [List.getElem?_set_self hk] at h1
    exact .inl ⟨rfl, (Option.some.inj h1).symm⟩
  · rw [List.getElem?_set_ne (Ne.symm hjk)] at h1
    exact .inr ⟨hjk, h1, h2⟩

end Sys2Proof.Machine
end

