-- ==== Sys2Proof/Tests/Slice0.lean ====
section
/-! SUPPORT. The model's own tests, one step each, with results from 95_test_vectors.md (the vector's name stands in each
comment) or from the cited rule, and a witness for every statement that has hypotheses. -/

namespace Sys2Proof.Tests

open Sys2Proof.Machine Sys2Proof.Spec

/-! ### A small state -/

-- The six RegIds of 95_test_vectors.md 2: PORTB 10, DDRB 11, PORTC 20, DDRC 21, PORTD 30, DDRD 31.

/-- cfgA of 95_test_vectors.md 2. -/
def cfgA : Bindings where
  dir    := { port := 10, ddr := 11, mask := 0x01#8 }
  enable := { port := 10, ddr := 11, mask := 0x02#8 }
  step   := { port := 10, ddr := 11, mask := 0x04#8 }
  ms1    := { port := 30, ddr := 31, mask := 0x10#8 }
  ms2    := { port := 30, ddr := 31, mask := 0x20#8 }
  ms3    := { port := 30, ddr := 31, mask := 0x40#8 }

/-- cfgB of 95_test_vectors.md 2. -/
def cfgB : Bindings where
  dir    := { port := 20, ddr := 21, mask := 0x01#8 }
  enable := { port := 20, ddr := 21, mask := 0x02#8 }
  step   := { port := 20, ddr := 21, mask := 0x04#8 }
  ms1    := { port := 20, ddr := 21, mask := 0x08#8 }
  ms2    := { port := 20, ddr := 21, mask := 0x10#8 }
  ms3    := { port := 20, ddr := 21, mask := 0x20#8 }

/-- An Active slot with cfgA. -/
def slotA : Slot := { Slot.constructed cfgA 5#8 with desiredPos := 199#8, stepSize := .eighth, dir := .backward }

/-- N = 2, slot 0 Active with cfgA, slot 1 Inactive, POS_MAX = 199, and the given registers, inputs and `cfg`. -/
def pool (g : Memory) (cfg : Bindings) (ins : List Input) : State where
  slots := [slotA, Slot.reset]
  posMax := 199#8
  gpio := g
  notPlain := []
  cfgIn := cfg
  inputs := ins
  responses := []

/-- The empty pool of reset with the given registers and inputs. -/
def emptyPool (g : Memory) (ins : List Input) : State := { State.reset with gpio := g, inputs := ins }

/-- The registers just after `slotA` was given its fields: MS 110, DIR high, STEP low, all six lines outputs. -/
def shownA : Memory := [(10, 0x01#8), (11, 0x07#8), (30, 0x30#8), (31, 0x70#8)]

/-- The outcome is a next state of which `p` holds. -/
def nextIs (o : Host.Outcome State Fault Refusal) (p : State → Bool) : Bool :=
  match o with
  | .next t    => p t
  | .fault _   => false
  | .refused _ => false

/-- Slot `i` of a state, as a Bool test. -/
def slotIs (t : State) (i : Nat) (p : Slot → Bool) : Bool := (t.slots[i]?).any p

/-! ### Well-formedness: the one check, on every constructor it applies to -/

theorem test_handle_16_is_ill_formed :
    (Instr.destruct 16).wellFormed = false ∧ (Instr.setspeed 16 0#8).wellFormed = false ∧
      (Instr.getspeed 16).wellFormed = false ∧ (Instr.setstep 16 .full).wellFormed = false ∧
      (Instr.getstep 16).wellFormed = false ∧ (Instr.setpos 16 0#8).wellFormed = false ∧
      (Instr.getpos 16).wellFormed = false ∧ (Instr.setdir 16 .forward).wellFormed = false ∧
      (Instr.getdir 16).wellFormed = false ∧ (Instr.step 16).wellFormed = false := by decide

theorem test_handle_15_is_well_formed : (Instr.setdir 15 .backward).wellFormed = true := by decide

/-! ### Decoding: a word written out from the fields for every constructor (30_encoding.md R83) -/

theorem test_decode_construct : decode 0b0001_0000_0000_0101#16 = .ok (.construct 5#8) := by decide
theorem test_decode_destruct : decode 0b0010_0001_0000_0000#16 = .ok (.destruct 1) := by decide
theorem test_decode_setspeed : decode 0b0011_0000_1100_1000#16 = .ok (.setspeed 0 200#8) := by decide
theorem test_decode_getspeed : decode 0b0100_1111_0000_0000#16 = .ok (.getspeed 15) := by decide
theorem test_decode_setstep : decode 0b0101_0001_0000_0100#16 = .ok (.setstep 1 .sixteenth) := by decide
theorem test_decode_getstep : decode 0b0110_0010_0000_0000#16 = .ok (.getstep 2) := by decide
theorem test_decode_setpos : decode 0b0111_0000_1100_0111#16 = .ok (.setpos 0 199#8) := by decide
theorem test_decode_getpos : decode 0b1000_0000_0000_0000#16 = .ok (.getpos 0) := by decide
theorem test_decode_setdir : decode 0b1001_1111_0000_0001#16 = .ok (.setdir 15 .backward) := by decide
theorem test_decode_getdir : decode 0b1010_0001_0000_0000#16 = .ok (.getdir 1) := by decide
theorem test_decode_step : decode 0b1011_0001_0000_0000#16 = .ok (.step 1) := by decide

/-- 95_test_vectors.md 3.1, the Illegal words, with the model's reason. -/
theorem test_decode_illegal :
    decode 0x0000#16 = .error .reservedOpcode ∧ decode 0x1105#16 = .error .handleNotZero ∧
      decode 0x2001#16 = .error .operandNotZero ∧ decode 0x5005#16 = .error .reservedStepCode ∧
      decode 0x5008#16 = .error .operandNotZero ∧ decode 0x9002#16 = .error .operandNotZero ∧
      decode 0xFFFF#16 = .error .reservedOpcode := by decide

theorem test_decodeTableWord : decodeTableWord 16 0x5003 = some (.setstep 0 .eighth) := by decide

theorem test_encode : encode (.setdir 1 .backward) = 0x9101#16 := by decide

/-- 30_encoding.md R96, 40_pool.md and 41_motor_control.md examples. -/
theorem test_listing :
    (Instr.construct 5#8).listing = "CONSTRUCT 5" ∧ (Instr.setstep 0 .eighth).listing = "SETSTEP 0, EIGHTH" ∧
      (Instr.setdir 1 .backward).listing = "SETDIR 1, BACKWARD" := by decide

/-! ### Commands, each as one step on its word -/

/-- C-1: bits outside the masks are preserved. -/
theorem test_construct_C1 :
    nextIs (step (emptyPool [(10, 0xAA#8), (11, 0x50#8), (30, 0x55#8), (31, 0x0F#8)] [.command 0x1000#16 cfgA]))
      (fun t => t.gpio == [(10, 0xA8#8), (11, 0x57#8), (30, 0x05#8), (31, 0x7F#8)] && t.responses == [0x0000#16] &&
        slotIs t 0 (· == Slot.constructed cfgA 0#8)) = true := by decide

/-- C-6: port and ddr are the same register, the later access decides. -/
theorem test_construct_C6 :
    nextIs (step (emptyPool [(7, 0x01#8)]
        [.command 0x1000#16 { cfgA with dir := { port := 7, ddr := 7, mask := 0x01#8 } }]))
      (fun t => t.gpio.read 7 == 0x01#8) = true := by decide

/-- D-1. -/
theorem test_destruct_D1 :
    nextIs (step (pool shownA cfgA [.command 0x2000#16 cfgB]))
      (fun t => slotIs t 0 (· == { slotA with status := .inactive }) && t.gpio == shownA && t.responses == [0x0000#16]) =
      true := by decide

/-- D-3: out of range. -/
theorem test_destruct_D3 :
    nextIs (step (pool shownA cfgA [.command 0x2500#16 cfgB]))
      (fun t => t.slots == [slotA, Slot.reset] && t.responses == [0x0000#16]) = true := by decide

/-- S-2. -/
theorem test_setspeed_S2 :
    nextIs (step (pool shownA cfgA [.command 0x30FF#16 cfgB])) (fun t => slotIs t 0 (·.speed == 255#8)) = true := by decide

/-- S-3. -/
theorem test_setspeed_S3 :
    nextIs (step (pool shownA cfgA [.command 0x3107#16 cfgB]))
      (fun t => t.slots == [slotA, Slot.reset] && t.responses == [0x0200#16]) = true := by decide

/-- 40_pool.md R113: the example of GETSPEED after CONSTRUCT 5. -/
theorem test_getspeed : nextIs (step (pool shownA cfgA [.command 0x4000#16 cfgB])) (·.responses == [0x0005#16]) = true := by
  decide

/-- 95_test_vectors.md 3.5, code 1, PORTD 0xC5 before. -/
theorem test_setstep_half :
    nextIs (step (pool [(30, 0xC5#8)] cfgA [.command 0x5001#16 cfgB]))
      (fun t => t.gpio == [(30, 0x95#8)] && slotIs t 0 (·.stepSize == .half)) = true := by decide

/-- ST-2: MS2 overlaps MS1; code 1 leaves PORTD = 0x00. -/
theorem test_setstep_ST2 :
    msWrite { cfgA with ms2 := { port := 30, ddr := 31, mask := 0x10#8 } } (encMs .half) [] = [] := by decide

/-- ST-3: after an external write of PORTD, GETSTEP returns the stored code. -/
theorem test_getstep_ST3 : nextIs (step (pool [] cfgA [.command 0x6000#16 cfgB])) (·.responses == [0x0003#16]) = true := by
  decide

/-- P-3. -/
theorem test_setpos_P3 :
    nextIs (step (pool [] cfgA [.command 0x70C8#16 cfgB]))
      (fun t => slotIs t 0 (·.desiredPos == 199#8) && t.responses == [0x0300#16]) = true := by decide

/-- P-6: POS_MAX = 255. -/
theorem test_setpos_P6 :
    nextIs (step { pool [] cfgA [.command 0x70FF#16 cfgB] with posMax := 255#8 })
      (fun t => slotIs t 0 (·.desiredPos == 255#8) && t.responses == [0x0000#16]) = true := by decide

/-- W1, step 5. -/
theorem test_getpos : nextIs (step (pool [] cfgA [.command 0x8000#16 cfgB])) (·.responses == [0x00C7#16]) = true := by decide

/-- DR-1. -/
theorem test_setdir_DR1 :
    nextIs (step (pool [(10, 0xF8#8)] cfgA [.command 0x9001#16 cfgB])) (·.gpio == [(10, 0xF9#8)]) = true := by decide

/-- DR-2: DIR low again. -/
theorem test_setdir_DR2 :
    nextIs (step (pool [(10, 0xF9#8)] cfgA [.command 0x9000#16 cfgB]))
      (fun t => t.gpio == [(10, 0xF8#8)] && slotIs t 0 (·.dir == .forward)) = true := by decide

/-- DR-1, GETDIR. -/
theorem test_getdir : nextIs (step (pool [] cfgA [.command 0xA000#16 cfgB])) (·.responses == [0x0001#16]) = true := by decide

/-- SP-1. -/
theorem test_step_SP1 :
    nextIs (step (pool [(10, 0x80#8)] cfgA [.command 0xB000#16 cfgB])) (·.gpio == [(10, 0x84#8)]) = true := by decide

/-- SP-3. -/
theorem test_step_SP3 :
    nextIs (step (pool [(10, 0x84#8)] cfgA [.command 0xB100#16 cfgB]))
      (fun t => t.gpio == [(10, 0x84#8)] && t.responses == [0x0200#16]) = true := by decide

/-- 95_test_vectors.md 3.9: Illegal beats HandleInvalid, which beats PositionInvalid. -/
theorem test_error_priority :
    nextIs (step (pool [] cfgA [.command 0x9F02#16 cfgB])) (·.responses == [0x0400#16]) = true ∧
      nextIs (step (pool [] cfgA [.command 0x7FC8#16 cfgB])) (·.responses == [0x0200#16]) = true := by decide

/-- C-2: pool exhausted. -/
theorem test_construct_C2 :
    nextIs (step { pool shownA cfgA [.command 0x10FF#16 cfgA] with slots := [slotA, slotA] })
      (fun t => t.gpio == shownA && t.slots == [slotA, slotA] && t.responses == [0x0100#16]) = true := by decide

/-- P3 of 95_test_vectors.md: the external loop clears STEP. -/
theorem test_external_write :
    nextIs (step (pool [(10, 0x85#8)] cfgA [.external 10 0x81#8])) (·.gpio == [(10, 0x81#8)]) = true := by decide

/-- 10_state.md R32: an output shows its PORT bit, an input shows nothing. -/
theorem test_level : level shownA cfgA.dir 0 = .drive true ∧ level [(10, 0x01#8)] cfgA.dir 0 = .undriven := by decide

/-- The word put by `withFetchWord` runs first after reset. -/
theorem test_withFetchWord :
    nextIs (step (State.reset.withFetchWord 16 0x1005))
      (fun t => slotIs t 0 (·.speed == 5#8) && t.responses == [0x0000#16] && t.inputs == []) = true := by decide

/-! ### Witnesses: every statement's hypotheses can be met -/

theorem invalid_of_inactive {s : State} {h : Nat} {a : Slot} (hs : s.slots[h]? = some a) (ha : a.status = .inactive) :
    s.Invalid h := fun sl hsl => by rw [hs] at hsl; cases hsl; exact ha

theorem invalid_of_none {s : State} {h : Nat} (hs : s.slots[h]? = none) : s.Invalid h := fun sl hsl => by
  rw [hs] at hsl; cases hsl

/-- The pool of the witnesses: `slotA` in slot 0, slot 1 Inactive, cfgB presented, the lines of `slotA` shown. -/
def wit : State := pool shownA cfgB []

theorem wit_holds : wit.Holds 0 slotA := by decide
theorem wit_invalid_inactive : wit.Invalid 1 := invalid_of_inactive (a := Slot.reset) rfl rfl
theorem wit_invalid_out_of_range : wit.Invalid 2 := invalid_of_none rfl
theorem wit_allocates : wit.Allocates 1 :=
  ⟨⟨Slot.reset, rfl, rfl⟩, fun j hj => by interval_cases j; exact ⟨slotA, rfl, rfl⟩⟩

theorem witness_DecodeOfEncode : (Instr.setstep 15 .sixteenth).wellFormed = true ∧ (Instr.setstep 0 .full).wellFormed = true := by
  decide
theorem witness_EncodeOfDecode : decode 0xBF00#16 = .ok (.step 15) := by decide
theorem witness_StepRunsDecodedCommand :
    (pool shownA cfgA [.command 0xB000#16 cfgB]).inputs = [.command 0xB000#16 cfgB] ∧
      decode 0xB000#16 = .ok (.step 0) := by decide
theorem witness_FetchWordRunsNext : decodeTableWord 16 0xB000 = some (.step 0) := by decide
theorem witness_BlockWaitsWithoutInput : State.reset.inputs = [] := rfl

/-- The words at the edges of 30_encoding.md R84's clauses. -/
theorem witness_IllegalWordChangesNothing :
    ∀ w ∈ [0x0FFF#16, 0xC000#16, 0x1100#16, 0x2001#16, 0x5005#16, 0x5008#16, 0x9002#16],
      (pool [] cfgA [.command w cfgB]).inputs = [.command w cfgB] ∧ IllegalFields w := by
  intro w hw
  refine ⟨rfl, ?_⟩
  simp only [List.mem_cons, List.not_mem_nil, or_false] at hw
  unfold IllegalFields
  rcases hw with rfl | rfl | rfl | rfl | rfl | rfl | rfl <;> decide

theorem witness_ExternalWriteStoresItsValue :
    Memory.wf (pool shownA cfgA [.external 10 0xFF#8]).gpio = true ∧
      (pool shownA cfgA [.external 10 0xFF#8]).inputs = [.external 10 0xFF#8] := by decide

/-- A legal command that answers Ok, one that answers an error, and an illegal word. -/
theorem witness_EveryCommandReturnsItsResponse :
    ∀ w ∈ [0x4000#16, 0x70C8#16, 0xFFFF#16],
      (pool shownA cfgA [.command w cfgB]).slots.length ≤ 16 ∧
        (pool shownA cfgA [.command w cfgB]).inputs = [.command w cfgB] ∧
        nextIs (step (pool shownA cfgA [.command w cfgB])) (fun _ => true) = true := by
  intro w hw
  simp only [List.mem_cons, List.not_mem_nil, or_false] at hw
  rcases hw with rfl | rfl | rfl <;> exact ⟨by decide, rfl, by decide⟩

theorem witness_ErrorLeavesNoPartialState :
    nextIs (step (pool shownA cfgA [.command 0x5103#16 cfgB])) (·.responses == [0x0200#16]) = true := by decide

theorem witness_HandleIsCheckedFirst :
    (Instr.setpos 0 200#8).checkedHandle? = some 0 ∧ wit.Holds 0 slotA ∧ wit.Invalid 1 ∧ wit.Invalid 2 :=
  ⟨rfl, wit_holds, wit_invalid_inactive, wit_invalid_out_of_range⟩

theorem witness_PinPrimitivesWriteTheirFormula : Memory.wf shownA = true := by decide
theorem witness_DdrOutputSetsItsMask : Memory.wf shownA = true := by decide
theorem witness_ZeroMaskLeavesGpioUnchanged : Memory.wf shownA = true ∧ PinBinding.zero.mask = 0#8 := by decide

theorem witness_ConstructAllocatesLowestInactiveSlot :
    wit.slots.length ≤ 16 ∧ Memory.wf wit.gpio = true ∧ wit.Allocates 1 ∧ bindingsPlain wit.notPlain wit.cfgIn = true :=
  ⟨by decide, by decide, wit_allocates, by decide⟩

/-- The clause of the statement above for a full pool. -/
theorem witness_construct_on_full_pool :
    ∀ sl ∈ ({ wit with slots := [slotA, slotA] } : State).slots, sl.status = .active := by decide

theorem witness_UnplainConfigurationIsRefused :
    (∃ sl ∈ ({ wit with notPlain := [21] } : State).slots, sl.status = .inactive) ∧
      (cfgB.get .ms3).ddr ∈ ({ wit with notPlain := [21] } : State).notPlain ∧
      bindingsPlain [21] cfgB = false := by decide

theorem witness_ConstructDrivesAllLinesLow :
    Memory.wf wit.gpio = true ∧ PortsApartFromDdrs wit.cfgIn ∧ (∃ sl ∈ wit.slots, sl.status = .inactive) ∧
      nextIs (exec (.construct 9#8) wit) (fun _ => true) = true := by unfold PortsApartFromDdrs; decide

/-- A CONSTRUCT after which a getter is run. -/
theorem witness_getter_after_construct :
    wit.Allocates 1 ∧ nextIs (exec (.construct 9#8) wit) (fun t => slotIs t 1 (·.speed == 9#8)) = true :=
  ⟨wit_allocates, by decide⟩

theorem witness_DestructMarksSlotInactive :
    wit.slots[0]? = some slotA ∧ wit.slots[1]? = some Slot.reset ∧ wit.slots.length ≤ 2 := by decide

/-- One step in each direction of the life cycle. -/
theorem witness_StatusFollowsTheLifeCycle :
    nextIs (step (pool shownA cfgA [.command 0x1009#16 cfgB])) (fun t => slotIs t 1 (·.status == .active)) = true ∧
      nextIs (step (pool shownA cfgA [.command 0x2000#16 cfgB])) (fun t => slotIs t 0 (·.status == .inactive)) = true ∧
      nextIs (step (pool shownA cfgA [.reset])) (fun t => slotIs t 0 (·.status == .inactive)) = true := by decide

theorem witness_StaleHandleNamesNewOccupant :
    wit.slots.length ≤ 16 ∧ wit.Holds 0 slotA ∧ (∀ j, j < 0 → ∃ a, wit.slots[j]? = some a ∧ a.status = .active) ∧
      bindingsPlain wit.notPlain wit.cfgIn = true :=
  ⟨by decide, wit_holds, fun j hj => absurd hj (Nat.not_lt_zero j), by decide⟩

/-- SETSPEED, GETSPEED, SETSTEP, GETSTEP, GETPOS, SETDIR, GETDIR, STEP: a valid handle with a canonical register file, and
the two kinds of invalid handle. -/
theorem witness_motor_commands :
    wit.Holds 0 slotA ∧ Memory.wf wit.gpio = true ∧ wit.Invalid 1 ∧ wit.Invalid 2 ∧ wit.PositionsLegal ∧
      [StepSize.full, .half, .quarter, .eighth, .sixteenth][3]? = some slotA.stepSize ∧
      [Direction.forward, .backward][1]? = some slotA.dir :=
  ⟨wit_holds, by decide, wit_invalid_inactive, wit_invalid_out_of_range, by decide, by decide, by decide⟩

/-- Operands at the edges of SETSTEP's and SETDIR's encoding clauses. -/
theorem witness_operand_codes :
    [StepSize.full, .half, .quarter, .eighth, .sixteenth][4]? = some .sixteenth ∧ 4 < (5#8).toNat ∧
      [Direction.forward, .backward][1]? = some .backward ∧ 1 < (2#8).toNat := by decide

theorem witness_SetposStoresALegalPosition :
    wit.Holds 0 slotA ∧ (199#8).toNat ≤ wit.posMax.toNat ∧ wit.posMax.toNat < (200#8).toNat ∧ wit.Invalid 2 :=
  ⟨wit_holds, by decide, by decide, wit_invalid_out_of_range⟩

theorem witness_StepNeverClearsABit :
    Memory.wf wit.gpio = true ∧ nextIs (exec (.step 0) wit) (fun t => bitOf t.gpio 10 2) = true := by decide

theorem witness_CommandsChangeOnlyTheirOwnState :
    Memory.wf wit.gpio = true ∧ nextIs (exec (.setstep 0 .quarter) wit) (fun t => t.gpio.read 30 == 0x20#8) = true := by
  decide

/-- SETSTEP clears MS1: bit 4 of PORTD. -/
theorem witness_OnlyDataRegisterBitsAreCleared :
    Memory.wf wit.gpio = true ∧ bitOf wit.gpio 30 4 = true ∧
      nextIs (exec (.setstep 0 .quarter) wit) (fun t => !bitOf t.gpio 30 4) = true := by decide

theorem witness_OnlyConstructReadsTheConfiguration :
    (∀ v, Instr.getdir 0 ≠ .construct v) ∧ nextIs (exec (.getdir 0) wit) (fun _ => true) = true :=
  ⟨fun _ h => (nomatch h), by decide⟩

theorem witness_ResponsesDoNotDependOnGpio : nextIs (exec (.setstep 0 .half) wit) (fun _ => true) = true := by decide

theorem witness_ResetClearsNoGpioRegister : (pool shownA cfgA [.reset]).inputs = [.reset] := by decide

/-- The smallest and the greatest legal pool. -/
theorem witness_legal_parameters :
    ({ slotCount := 1, posMax := 0#8, gpioInit := [], notPlain := [] } : Params).Legal ∧
      ({ slotCount := 16, posMax := 255#8, gpioInit := shownA, notPlain := [7] } : Params).Legal ∧
      Config.defaults.Legal := by decide

theorem witness_FirstConstructReturnsHandleZero :
    ({ slotCount := 16, posMax := 255#8, gpioInit := shownA, notPlain := [7] } : Params).Legal ∧
      bindingsPlain [7] cfgA = true := by decide

theorem witness_StepKeepsTheInvariant :
    (pool shownA cfgA [.command 0x70C7#16 cfgB]).Inv ∧
      nextIs (step (pool shownA cfgA [.command 0x70C7#16 cfgB])) (fun t => t.slots.length == 2) = true := by decide

theorem witness_StepKeepsTheParameters :
    nextIs (step (pool shownA cfgA [.command 0x1009#16 cfgB])) (fun t => t.posMax == 199#8) = true := by decide

/-- A well-wired pool that shows its fields, with an input of each kind that leaves its lines to the block: a command, a
CONSTRUCT with apart lines, the external clear of STEP, and a reset. -/
theorem witness_StepKeepsLinesShowingTheirFields :
    Memory.wf wit.gpio = true ∧ wit.Wired ∧ wit.PinsShown ∧ wit.Undisturbed (.command 0x1005#16 cfgB) ∧
      wit.Undisturbed (.command 0x5004#16 cfgA) ∧ wit.Undisturbed (.external 10 0x81#8) ∧ wit.Undisturbed .reset := by
  have hall : ∀ sl ∈ wit.slots, sl.status = .active → sl = slotA := by decide
  have hone : ∀ i a, wit.Holds i a → i = 0 ∧ a = slotA := by
    intro i a ⟨h1, h2⟩
    have hm := List.mem_of_getElem? h1
    have ha := hall a hm h2
    subst ha
    refine ⟨?_, rfl⟩
    have hlt : i < 2 := (List.getElem?_eq_some_iff.1 h1).1
    interval_cases i
    · rfl
    · exact absurd h1 (by decide)
  refine ⟨by decide, ⟨by decide, ?_⟩, by decide, ?_, ?_, ?_, trivial⟩
  · intro i j a b hij ha hb
    exact absurd ((hone i a ha).1.trans (hone j b hb).1.symm) hij
  · intro _ _; exact ⟨by decide, fun sl hm hs => by rw [hall sl hm hs]; decide⟩
  · intro v hv; exact absurd hv (by rw [show decode 0x5004#16 = .ok (.setstep 0 .sixteenth) by decide]; simp)
  · intro sl hm hs; rw [hall sl hm hs]; decide

/-- SETSTEP on a slot whose lines are shown, and a step that touches none of their bits. -/
theorem witness_MicrostepLinesFollowStepSize :
    MsApart cfgA ∧ (∀ L ∈ [LineRole.ms1, .ms2, .ms3], LineShows shownA slotA L) ∧
      decode 0x5002#16 = .ok (.setstep 0 .quarter) ∧ Memory.wf shownA = true ∧
      nextIs (step (pool shownA cfgA [.command 0x5002#16 cfgB]))
        (fun t => decide (t.Holds 0 { slotA with stepSize := .quarter })) = true ∧
      (∀ L ∈ [LineRole.ms1, .ms2, .ms3], LineUntouched shownA [(11, 0x07#8), (30, 0x30#8), (31, 0x70#8)] cfgA L) := by
  refine ⟨by unfold MsApart; decide, ?_, by decide, by decide, by decide, ?_⟩
  · intro L hL k v hk hm hv
    simp only [List.mem_cons, List.not_mem_nil, or_false] at hL
    rcases hL with rfl | rfl | rfl <;>
      (simp only [Slot.shows, Option.some.injEq] at hv; subst hv; revert hm; interval_cases k <;> decide)
  · intro L hL k hk _
    simp only [List.mem_cons, List.not_mem_nil, or_false] at hL
    rcases hL with rfl | rfl | rfl <;> (interval_cases k <;> decide)

/-- Two states that differ in the fields of the Inactive slot 1. -/
theorem witness_InactiveSlotFieldsAreUnobservable :
    (pool shownA cfgA [.command 0x1009#16 cfgB]).Alike
        { pool shownA cfgA [.command 0x1009#16 cfgB] with slots := [slotA, { Slot.reset with speed := 77#8, bind := cfgB }] } ∧
      nextIs (step (pool shownA cfgA [.command 0x1009#16 cfgB])) (fun _ => true) = true := by
  refine ⟨⟨.cons ⟨rfl, fun _ => rfl⟩ (.cons ⟨rfl, fun h => nomatch h⟩ .nil), rfl⟩, by decide⟩

theorem witness_RunAnswersEveryCommand :
    (pool shownA cfgA [.command 0x1009#16 cfgB, .external 10 0x00#8, .reset, .command 0xFFFF#16 cfgB]).HostDutiful := by
  decide

/-! ### Any parameters: two registers named by Bool, all ones at reset -/

/-- N = 1, GPIO_INIT = 0xFF everywhere; slot 0 holds something on reset. -/
def onesParams : Open.Params Bool where
  slotCount := 1
  posMax := 10#8
  gpioInit := fun _ => 0xFF#8
  plain := fun _ => true
  leftover := fun _ =>
    { status := .active, bind := fun _ => { port := true, ddr := false, mask := 0x80#8 }, speed := 77#8,
      stepSize := .sixteenth, desiredPos := 255#8, dir := .backward }

/-- All six lines at bit 0 of port `false` and ddr `true`. -/
def onesCfg : Open.Wiring Bool := fun _ => { port := false, ddr := true, mask := 0x01#8 }

/-- `false` is register 0 and `true` is register 1. -/
def onesNumber (b : Bool) : RegId := b.toNat

/-- 40_pool.md R111 on a register file of all ones: the data-register bit is cleared. -/
theorem test_open_construct_on_ones :
    (match Open.run onesParams [.command 0x1005#16 onesCfg, .external true 0x0F#8] onesParams.reset with
      | .next s    => (s.gpio false, s.gpio true, s.responses) == (0xFE#8, 0x0F#8, [0x0000#16])
      | .fault _   => false
      | .refused _ => false) = true := by decide

/-- The same reset contents as a state: registers 0 and 1 hold 0xFF. -/
theorem test_open_number : (onesParams.number onesNumber [false, true]).gpioInit = [(0, 0xFF#8), (1, 0xFF#8)] := by decide

/-- The state that matches the board after reset, with a CONSTRUCT to come. -/
def onesState : State :=
  { State.resetWith (onesParams.number onesNumber [false, true]) with
    inputs := [(Open.Input.command 0x1005#16 onesCfg).number onesNumber] }

theorem witness_StepIsTheStepOverAnyParameters :
    Open.NumbersApart onesNumber [false, true] ∧
      (∀ r ∈ (Open.Input.command 0x1005#16 onesCfg).registers, r ∈ [false, true]) ∧
      onesParams.reset.Matches onesParams onesNumber [false, true] onesState ∧
      onesState.inputs = (Open.Input.command 0x1005#16 onesCfg).number onesNumber :: [] where
  left := by unfold Open.NumbersApart; decide
  right := by
    refine ⟨fun r _ => by cases r <;> decide, ?_, rfl⟩
    exact
      { slots := .cons (Open.Slot.matches_of_inactive rfl rfl) .nil
        slotCount := rfl
        posMax := rfl
        file := { canonical := by decide, named := by decide, unnamed := fun _ _ => rfl }
        notPlain := by decide
        responses := rfl }

theorem witness_RunIsTheRunOverAnyParameters :
    Open.NumbersApart onesNumber ([.command 0x1005#16 onesCfg, .reset].flatMap Open.Input.registers) := by
  unfold Open.NumbersApart; decide

end Sys2Proof.Tests
end

/-! ## Scope: parameters, and the block over any parameters (00_scope.md R9) -/

/-! ### What a command leaves alone -/

namespace Sys2Proof.Machine

/-- A motor command keeps the pool's size and everything around slots, registers and responses. -/
theorem motorResult_keeps (i : Instr) (sl : Slot) (s : State) :
    (motorResult i sl s).slots.length = s.slots.length ∧ s.SameSurroundings (motorResult i sl s) := by
  cases i with
  | setpos h v =>
    simp only [motorResult]
    split
    · exact ⟨rfl, rfl, rfl, rfl, rfl⟩
    · exact ⟨List.length_set, rfl, rfl, rfl, rfl⟩
  | setspeed | setstep | setdir => exact ⟨List.length_set, rfl, rfl, rfl, rfl⟩
  | construct | destruct | getspeed | getstep | getpos | getdir | step => exact ⟨rfl, rfl, rfl, rfl, rfl⟩

/-- A command keeps the pool's size and everything around slots, registers and responses. -/
theorem exec_keeps {i : Instr} {s t : State} (h : exec i s = .next t) :
    t.slots.length = s.slots.length ∧ s.SameSurroundings t := by
  obtain ⟨speed, -, hc⟩ | ⟨j, -, hd⟩ | ⟨j, -, ⟨sl, -, rfl⟩ | ⟨-, rfl⟩⟩ := exec_cases h
  · obtain ⟨-, rfl⟩ | ⟨i, -, -, rfl⟩ := execConstruct_cases hc
    · exact ⟨rfl, rfl, rfl, rfl, rfl⟩
    · exact ⟨List.length_set, rfl, rfl, rfl, rfl⟩
  · obtain ⟨sl, -, rfl⟩ | ⟨-, rfl⟩ := execDestruct_cases hd
    · exact ⟨List.length_set, rfl, rfl, rfl, rfl⟩
    · exact ⟨rfl, rfl, rfl, rfl, rfl⟩
  · exact motorResult_keeps i sl s
  · exact ⟨rfl, rfl, rfl, rfl, rfl⟩

/-! ### One step, by its input -/

theorem step_of_legal {s : State} {w : Word} {cfg : Bindings} {rest : List Input} {i : Instr}
    (hs : s.inputs = .command w cfg :: rest) (hw : decode w = .ok i) : step s = exec i (s.sample cfg rest) := by
  simp only [step, hs, hw]

theorem step_of_illegal {s : State} {w : Word} {cfg : Bindings} {rest : List Input} {e : IllegalWord}
    (hs : s.inputs = .command w cfg :: rest) (hw : decode w = .error e) :
    step s = .next (s.sample cfg rest).illegalCommand := by
  simp only [step, hs, hw]

theorem step_of_external {s : State} {r : RegId} {v : Byte} {rest : List Input}
    (hs : s.inputs = .external r v :: rest) : step s = .next ((s.withInputs rest).externalWrite r v) := by
  simp only [step, hs]

theorem step_of_reset {s : State} {rest : List Input} (hs : s.inputs = .reset :: rest) :
    step s = .next (s.withInputs rest).resetBlock := by
  simp only [step, hs]

/-- A run stops where its first step is refused. -/
theorem core_run_of_refused {s : State} {e : Refusal} (h : step s = .refused e) (n : Nat) :
    Host.Core.run core (n + 1) s = .refused e := by
  have hstep : core.step s = .refused e := h
  simp only [Host.Core.run, hstep]

end Sys2Proof.Machine

namespace Sys2Proof.Spec

open Sys2Proof.Machine

/-- Settles O43: a command keeps the pool's size and its surroundings, and so do the other inputs. -/
theorem stepKeepsTheParameters : Obligations.StepKeepsTheParameters := by
  intro s t h
  obtain ⟨-, rfl⟩ | ⟨w, cfg, rest, i, -, -, he⟩ | ⟨w, cfg, rest, e, -, -, rfl⟩ | ⟨r, v, rest, -, rfl⟩ |
    ⟨rest, -, rfl⟩ := step_cases h
  · exact ⟨rfl, rfl, rfl⟩
  · obtain ⟨hlen, hpos, hplain, -, -⟩ := exec_keeps he
    exact ⟨hlen, hpos, hplain⟩
  · exact ⟨rfl, rfl, rfl⟩
  · exact ⟨rfl, rfl, rfl⟩
  · exact ⟨List.length_replicate, rfl, rfl⟩

end Sys2Proof.Spec

/-! ### Matching boards do the same -/

namespace Sys2Proof.Open

variable {R : Type} {p : Params R} {ρ : R → RegId} {rs : List R} {s : Board R} {t : Machine.State}

section Outcomes

variable {o : Host.Outcome (Board R) Machine.Fault Machine.Refusal}
  {o' : Host.Outcome Machine.State Machine.Fault Machine.Refusal} {P Q : Board R → Machine.State → Prop}

theorem SameOutcome.next (h : P s t) : SameOutcome (.next s) (.next t) P := .inl ⟨s, t, rfl, rfl, h⟩

/-- Outcomes that agree, agree on whatever follows for the next states. -/
theorem SameOutcome.imp (h : SameOutcome o o' P) (hPQ : ∀ s t, o' = .next t → P s t → Q s t) : SameOutcome o o' Q := by
  obtain ⟨s, t, ho, ho', hP⟩ | hrefused := h
  · exact .inl ⟨s, t, ho, ho', hPQ s t ho' hP⟩
  · exact .inr hrefused

end Outcomes

/-! #### Updates of matching boards -/

/-- A slot on registers of `rs` matches its own numbering. -/
theorem Slot.matches_number {a : Slot R} (ha : ∀ r ∈ registersOf a.bind, r ∈ rs) : Slot.Matches ρ rs a (a.number ρ) where
  status := rfl
  fields _ := rfl
  named _ := ha

theorem Board.Matches.respond (h : s.Matches p ρ rs t) (c : Machine.ResultCode) (d : Byte) :
    (s.respond c d).Matches p ρ rs (t.respond c d) :=
  { h with responses := congrArg (· ++ [Machine.responseWord c d]) h.responses }

theorem Board.Matches.setSlot (h : s.Matches p ρ rs t) (j : Nat) {a : Slot R} {b : Machine.Slot}
    (hab : Slot.Matches ρ rs a b) : (s.setSlot j a).Matches p ρ rs (t.setSlot j b) :=
  { h with
    slots := slots_set h.slots j hab
    slotCount := List.length_set.trans h.slotCount }

theorem Board.Matches.setGpio (h : s.Matches p ρ rs t) {g : R → Byte} {m : Machine.Memory}
    (hf : FileMatches p ρ rs g m) : Board.Matches p ρ rs { s with gpio := g } (t.setGpio m) :=
  { h with file := hf }

theorem Board.Matches.withInputs (h : s.Matches p ρ rs t) (rest : List Machine.Input) :
    s.Matches p ρ rs (t.withInputs rest) :=
  { h with }

theorem Board.Matches.sample (h : s.Matches p ρ rs t) (cfg : Bindings) (rest : List Machine.Input) :
    s.Matches p ρ rs (t.sample cfg rest) :=
  { h with }

/-- Lists of Inactive slots of one length match, whatever the slots hold. -/
theorem slots_match_of_inactive {l : List (Slot R)} {l' : List Machine.Slot} (hlen : l.length = l'.length)
    (hl : ∀ a ∈ l, a.status = .inactive) (hl' : ∀ b ∈ l', b.status = .inactive) :
    List.Forall₂ (Slot.Matches ρ rs) l l' :=
  List.forall₂_iff_zip.2 ⟨hlen, fun hab =>
    Slot.matches_of_inactive (hl _ (List.of_mem_zip hab).1) (hl' _ (List.of_mem_zip hab).2)⟩

theorem Params.length_resetSlots (p : Params R) : p.resetSlots.length = p.slotCount := by
  simp [Params.resetSlots]

/-- Reset leaves every slot Inactive (70_reset_and_hazards.md R190). -/
theorem Params.status_of_mem_resetSlots {a : Slot R} (ha : a ∈ p.resetSlots) : a.status = .inactive := by
  obtain ⟨i, -, rfl⟩ := List.mem_map.1 ha
  rfl

/-- The slots of a reset board match the slots of a reset state of the same size. -/
theorem resetSlots_match {n : Nat} (hn : n = p.slotCount) :
    List.Forall₂ (Slot.Matches ρ rs) p.resetSlots (List.replicate n Machine.Slot.reset) :=
  slots_match_of_inactive (by rw [p.length_resetSlots, List.length_replicate, hn])
    (fun _ => Params.status_of_mem_resetSlots) fun b hb => by rw [List.eq_of_mem_replicate hb]; rfl

theorem Board.Matches.reset (h : s.Matches p ρ rs t) :
    Board.Matches p ρ rs { s with slots := p.resetSlots } t.resetBlock :=
  { h with
    slots := resetSlots_match h.slotCount
    slotCount := List.length_replicate.trans h.slotCount }

/-! #### Commands -/

/-- The handle check (41_motor_control.md R120) answers alike, or goes on with an Active slot and its numbering. -/
theorem Board.Matches.onActive (h : s.Matches p ρ rs t) (j : Nat) {k : Slot R → Board R}
    {k' : Machine.Slot → Machine.State}
    (hk : ∀ a, (∀ r ∈ registersOf a.bind, r ∈ rs) → (k a).Matches p ρ rs (k' (a.number ρ))) :
    (s.onActive j k).Matches p ρ rs (t.onActive j k') := by
  obtain ⟨hs, ht⟩ | ⟨a, b, hs, ht, hab⟩ := slots_getElem? h.slots j
  · simp only [Board.onActive, Machine.State.onActive, Machine.State.resolve, hs, ht]
    exact h.respond .handleInvalid 0#8
  · simp only [Board.onActive, Machine.State.onActive, Machine.State.resolve, hs, ht, hab.status]
    by_cases ha : a.status = .active
    · simp only [if_pos ha, hab.fields ha]
      exact hk a (hab.named ha)
    · simp only [if_neg ha]
      exact h.respond .handleInvalid 0#8

/-- The two checks of a configuration for plain registers agree (20_memory.md R51). -/
theorem bindingsPlain_numberWiring {notPlain : List RegId} (h : ∀ r ∈ rs, (ρ r ∈ notPlain ↔ p.plain r = false))
    {cfg : Wiring R} (hcfg : ∀ r ∈ registersOf cfg, r ∈ rs) :
    Machine.bindingsPlain notPlain (numberWiring ρ cfg) =
      Machine.roleOrder.all fun L => p.plain (cfg L).port && p.plain (cfg L).ddr := by
  have hplain : ∀ r ∈ registersOf cfg, decide (ρ r ∉ notPlain) = p.plain r := fun r hr => by
    simp [h r (hcfg r hr)]
  refine congrArg Machine.roleOrder.all (funext fun L => ?_)
  rw [numberWiring_get, ← hplain _ (mem_registersOf cfg L).1, ← hplain _ (mem_registersOf cfg L).2]
  rfl

/-- DESTRUCT (40_pool.md R113). -/
theorem Board.Matches.destruct [DecidableEq R] (h : s.Matches p ρ rs t) (cfg : Wiring R) (j : Nat) :
    SameOutcome (Open.exec p cfg (.destruct j) s) (Machine.exec (.destruct j) t) (Board.Matches p ρ rs) := by
  obtain ⟨hs, ht⟩ | ⟨a, b, hs, ht, -⟩ := slots_getElem? h.slots j
  · simp only [Open.exec, hs, Machine.exec_destruct_of_none ht]
    exact .next (h.respond .ok 0#8)
  · simp only [Open.exec, hs, Machine.exec_destruct_of_some ht]
    exact .next ((h.setSlot j (Slot.matches_of_inactive rfl rfl)).respond .ok 0#8)

section Registers

variable [DecidableEq R] (hρ : NumbersApart ρ rs) {cfg : Wiring R} (hcfg : ∀ r ∈ registersOf cfg, r ∈ rs)
include hρ hcfg

/-- CONSTRUCT (40_pool.md R110 to R112). -/
theorem Board.Matches.construct (h : s.Matches p ρ rs t) (hin : t.cfgIn = numberWiring ρ cfg) (speed : Byte) :
    SameOutcome (Open.exec p cfg (.construct speed) s) (Machine.exec (.construct speed) t) (Board.Matches p ρ rs) := by
  simp only [Open.exec, Machine.exec, Machine.execConstruct, findIdx?_eq_leastInactive h.slots, hin,
    bindingsPlain_numberWiring h.notPlain hcfg]
  cases Machine.leastInactive t.slots with
  | none => exact .next (h.respond .poolExhausted 0#8)
  | some j =>
    dsimp only
    split
    · exact .next (((h.setSlot j (Slot.matches_number hcfg)).setGpio (h.file.initLines hρ hcfg)).respond _ _)
    · exact .inr ⟨.bindingNotPlain, rfl, rfl⟩

/-- A command with its configuration input: on matching boards the outcomes agree. -/
theorem Board.Matches.exec (h : s.Matches p ρ rs t) (hin : t.cfgIn = numberWiring ρ cfg) (i : Instr) :
    SameOutcome (Open.exec p cfg i s) (Machine.exec i t) (Board.Matches p ρ rs) := by
  have hport : ∀ {c : Wiring R} (L : LineRole), (∀ r ∈ registersOf c, r ∈ rs) → (c L).port ∈ rs :=
    fun L hc => hc _ (mem_registersOf _ L).1
  cases i with
  | construct speed => exact h.construct hρ hcfg hin speed
  | destruct j => exact h.destruct cfg j
  | setspeed j v =>
    exact .next (h.onActive j fun a hr =>
      (h.setSlot j (Slot.matches_number (a := { a with speed := v }) hr)).respond _ _)
  | getspeed j => exact .next (h.onActive j fun _ _ => h.respond _ _)
  | setstep j z =>
    refine .next (h.onActive j fun a hr =>
      ((h.setSlot j (Slot.matches_number (a := { a with stepSize := z }) hr)).setGpio ?_).respond _ _)
    exact ((h.file.pinWrite hρ (hport .ms1 hr) _).pinWrite hρ (hport .ms2 hr) _).pinWrite hρ (hport .ms3 hr) _
  | getstep j => exact .next (h.onActive j fun _ _ => h.respond _ _)
  | setpos j v =>
    refine .next (h.onActive j fun a hr => ?_)
    rw [h.posMax]
    split
    · exact h.respond _ _
    · exact (h.setSlot j (Slot.matches_number (a := { a with desiredPos := v }) hr)).respond _ _
  | getpos j => exact .next (h.onActive j fun _ _ => h.respond _ _)
  | setdir j d =>
    refine .next (h.onActive j fun a hr =>
      ((h.setSlot j (Slot.matches_number (a := { a with dir := d }) hr)).setGpio ?_).respond _ _)
    exact h.file.pinWrite hρ (hport .dir hr) _
  | getdir j => exact .next (h.onActive j fun _ _ => h.respond _ _)
  | step j => exact .next (h.onActive j fun a hr => (h.setGpio (h.file.pinSet hρ (hport .step hr))).respond _ _)

end Registers

/-! #### Steps and runs -/

section Runs

variable [DecidableEq R] (hρ : NumbersApart ρ rs)
include hρ

/-- One input: on matching boards the outcomes agree, and the input is used up. -/
theorem Board.Matches.step (h : s.Matches p ρ rs t) {x : Input R} {rest : List Machine.Input}
    (hx : ∀ r ∈ x.registers, r ∈ rs) (ht : t.inputs = x.number ρ :: rest) :
    SameOutcome (Open.step p x s) (Machine.step t) fun s' t' => s'.Matches p ρ rs t' ∧ t'.inputs = rest := by
  cases x with
  | command w cfg =>
    cases hw : decode w with
    | ok i =>
      simp only [Open.step, hw, Machine.step_of_legal ht hw]
      refine ((h.sample (numberWiring ρ cfg) rest).exec hρ hx rfl i).imp fun _ _ he hm => ⟨hm, ?_⟩
      obtain ⟨-, -, -, -, hinputs⟩ := Machine.exec_keeps he
      exact hinputs
    | error e =>
      simp only [Open.step, hw, Machine.step_of_illegal ht hw]
      exact .next ⟨(h.sample (numberWiring ρ cfg) rest).respond .illegalCommand 0#8, rfl⟩
  | external r v =>
    rw [Machine.step_of_external ht]
    exact .next ⟨(h.withInputs rest).setGpio (h.file.write hρ (hx r List.mem_cons_self) v), rfl⟩
  | reset =>
    rw [Machine.step_of_reset ht]
    exact .next ⟨(h.withInputs rest).reset, rfl⟩

/-- A list of inputs: on matching boards the outcomes agree, and the inputs are used up. -/
theorem Board.Matches.run {xs : List (Input R)} (hxs : ∀ x ∈ xs, ∀ r ∈ x.registers, r ∈ rs)
    (h : s.Matches p ρ rs t) (ht : t.inputs = xs.map (Input.number ρ)) :
    SameOutcome (Open.run p xs s) (Host.Core.run core xs.length t) fun s' t' => s'.Matches p ρ rs t' ∧ t'.inputs = [] := by
  induction xs generalizing s t with
  | nil => exact .next ⟨h, ht⟩
  | cons x xs ih =>
    obtain ⟨hx, hxs⟩ := List.forall_mem_cons.1 hxs
    obtain ⟨s', t', hs, ht', hm, hrest⟩ | ⟨e, hs, ht'⟩ := h.step hρ hx ht
    · simp only [Open.run, hs, List.length_cons, Machine.core_run_of_next ht']
      exact ih hxs hm hrest
    · exact .inr ⟨e, by simp only [Open.run, hs], Machine.core_run_of_refused ht' _⟩

/-! #### Reset -/

/-- After writing `g` into the numbered registers of `l`, one after the other, a register of `l` reads as in `g` and any
other as before; the canonical form is kept. -/
theorem read_foldl_write {l : List R} (hl : ∀ r ∈ l, r ∈ rs) (g : R → Byte) {m : Machine.Memory} (hm : m.wf = true) :
    (l.foldl (fun m r => m.write (ρ r) (g r)) m).wf = true ∧
      ∀ r ∈ rs, (l.foldl (fun m r => m.write (ρ r) (g r)) m).read (ρ r) = if r ∈ l then g r else m.read (ρ r) := by
  induction l generalizing m with
  | nil => exact ⟨hm, fun r _ => by simp⟩
  | cons a l ih =>
    obtain ⟨ha, hl⟩ := List.forall_mem_cons.1 hl
    obtain ⟨hwf, hread⟩ := ih hl (Machine.Memory.wf_write (ρ a) (g a) hm)
    refine ⟨hwf, fun r hr => ?_⟩
    rw [List.foldl_cons, hread r hr, Machine.Memory.read_write _ _ _ hm]
    by_cases har : a = r
    · simp [har]
    · have hne : ρ a ≠ ρ r := fun e => har (hρ a ha r hr e)
      simp [hne, Ne.symm har]

/-- The numbered reset contents match `GPIO_INIT`. -/
theorem fileMatches_number : FileMatches p ρ rs p.gpioInit (p.number ρ rs).gpioInit := by
  obtain ⟨hwf, hread⟩ := read_foldl_write hρ (fun _ hr => hr) p.gpioInit (m := []) rfl
  exact { canonical := hwf, named := fun r hr => (hread r hr).trans (if_pos hr), unnamed := fun _ _ => rfl }

omit [DecidableEq R] in
/-- A register of `rs` is numbered as not plain exactly when it is not plain. -/
theorem mem_notPlain_number {r : R} (hr : r ∈ rs) : ρ r ∈ (p.number ρ rs).notPlain ↔ p.plain r = false := by
  simp only [Params.number, List.mem_map, List.mem_filter, Bool.not_eq_true']
  constructor
  · rintro ⟨a, ⟨ha, hplain⟩, e⟩
    rwa [← hρ a ha r hr e]
  · exact fun hplain => ⟨r, ⟨hr, hplain⟩, rfl⟩

/-- The reset board matches the reset state of the numbered parameters. -/
theorem reset_matches : p.reset.Matches p ρ rs (Machine.State.resetWith (p.number ρ rs)) where
  slots := resetSlots_match rfl
  slotCount := List.length_replicate
  posMax := rfl
  file := fileMatches_number hρ
  notPlain _ hr := mem_notPlain_number hρ hr
  responses := rfl

end Runs

/-- The position in a list numbers its registers apart. -/
theorem numbersApart_idxOf [DecidableEq R] (rs : List R) : NumbersApart (fun r => rs.idxOf r) rs :=
  fun _ ha _ _ e => (List.idxOf_inj ha).1 e

end Sys2Proof.Open

namespace Sys2Proof.Spec

open Sys2Proof.Machine

/-- Settles O48: input by input, and for a command arm by arm, matching boards do the same. -/
theorem stepIsTheStepOverAnyParameters : Obligations.StepIsTheStepOverAnyParameters :=
  fun _ _ _ _ _ _ _ _ _ hρ hx h ht => h.step hρ hx ht

/-- Settles O49: the reset states match, and every step keeps them matching (O48), by induction on the inputs. -/
theorem runIsTheRunOverAnyParameters : Obligations.RunIsTheRunOverAnyParameters := by
  intro R _ p xs
  refine ⟨⟨_, Open.numbersApart_idxOf _⟩, fun ρ hρ => ?_⟩
  have hxs : ∀ x ∈ xs, ∀ r ∈ x.registers, r ∈ xs.flatMap Open.Input.registers :=
    fun x hx r hr => List.mem_flatMap.2 ⟨x, hx, hr⟩
  exact ((Open.reset_matches hρ).withInputs (xs.map (Open.Input.number ρ))).run hρ hxs rfl

end Sys2Proof.Spec

/-! ## State: the invariants and what can be observed (10_state.md) -/

/-! ### A motor command in one form: the slot, the registers and the answer -/

namespace Sys2Proof.Machine

/-- The slot a motor command leaves behind its handle, given `POS_MAX` (10_state.md R37). -/
def motorSlot : Instr → Byte → Slot → Slot
  | .setspeed _ v, _, sl    => { sl with speed := v }
  | .setstep _ z, _, sl     => { sl with stepSize := z }
  | .setpos _ v, posMax, sl => if posMax.toNat < v.toNat then sl else { sl with desiredPos := v }
  | .setdir _ d, _, sl      => { sl with dir := d }
  | .construct _, _, sl | .destruct _, _, sl | .getspeed _, _, sl | .getstep _, _, sl | .getpos _, _, sl
  | .getdir _, _, sl | .step _, _, sl => sl

/-- The register file a motor command leaves, when its handle names `sl` (10_state.md R37). -/
def motorGpio : Instr → Slot → Memory → Memory
  | .setstep _ z, sl, g => msWrite sl.bind (encMs z) g
  | .setdir _ d, sl, g  => pinWrite sl.bind.dir (encDir d) g
  | .step _, sl, g      => pinSet sl.bind.step g
  | .construct _, _, g | .destruct _, _, g | .setspeed _ _, _, g | .getspeed _, _, g | .getstep _, _, g
  | .setpos _ _, _, g | .getpos _, _, g | .getdir _, _, g => g

/-- The status and data a motor command answers on a valid handle, given `POS_MAX` (41_motor_control.md R121 to R129). -/
def motorAnswer : Instr → Byte → Slot → ResultCode × Byte
  | .getspeed _, _, sl     => (.ok, sl.speed)
  | .getstep _, _, sl      => (.ok, zext8 sl.stepSize.code)
  | .getpos _, _, sl       => (.ok, sl.desiredPos)
  | .getdir _, _, sl       => (.ok, zext8 sl.dir.code)
  | .setpos _ v, posMax, _ => if posMax.toNat < v.toNat then (.positionInvalid, 0#8) else (.ok, 0#8)
  | .construct _, _, _ | .destruct _, _, _ | .setspeed _ _, _, _ | .setstep _ _, _, _ | .setdir _ _, _, _
  | .step _, _, _ => (.ok, 0#8)

/-- The state a motor command goes on to from `s`, when its handle `h` names `sl`. -/
def State.afterMotor (s : State) (i : Instr) (h : Nat) (sl : Slot) : State :=
  ((s.setSlot h (motorSlot i s.posMax sl)).setGpio (motorGpio i sl s.gpio)).respond
    (motorAnswer i s.posMax sl).1 (motorAnswer i s.posMax sl).2

@[simp] theorem State.afterMotor_slots (s : State) (i : Instr) (h : Nat) (sl : Slot) :
    (s.afterMotor i h sl).slots = s.slots.set h (motorSlot i s.posMax sl) := rfl

@[simp] theorem State.afterMotor_gpio (s : State) (i : Instr) (h : Nat) (sl : Slot) :
    (s.afterMotor i h sl).gpio = motorGpio i sl s.gpio := rfl

theorem State.setSlot_self {s : State} {h : Nat} {sl : Slot} (hs : s.slots[h]? = some sl) : s.setSlot h sl = s := by
  obtain ⟨hlt, rfl⟩ := List.getElem?_eq_some_iff.1 hs
  rw [State.setSlot, List.set_getElem_self]

theorem motorResult_eq_afterMotor {i : Instr} {h : Nat} (hi : i.checkedHandle? = some h) {s : State} {sl : Slot}
    (hh : s.Holds h sl) : motorResult i sl s = s.afterMotor i h sl := by
  have hself := State.setSlot_self hh.1
  cases i with
  | construct | destruct => cases hi
  | setspeed | setstep | setdir => cases hi; rfl
  | getspeed | getstep | getpos | getdir | step =>
    cases hi; simp only [State.afterMotor, motorSlot, hself]; rfl
  | setpos j v =>
    cases hi
    simp only [State.afterMotor, motorResult, motorSlot, motorGpio, motorAnswer]
    split
    · simp only [hself]; rfl
    · rfl

/-- The state CONSTRUCT goes on to from `s` when it allocates slot `i` (40_pool.md R110). -/
def State.afterConstruct (s : State) (speed : Byte) (i : Nat) : State :=
  ((s.setSlot i (Slot.constructed s.cfgIn speed)).setGpio (initLines s.cfgIn s.gpio)).respond .ok (zext8 i)

@[simp] theorem State.afterConstruct_slots (s : State) (speed : Byte) (i : Nat) :
    (s.afterConstruct speed i).slots = s.slots.set i (Slot.constructed s.cfgIn speed) := rfl

@[simp] theorem State.afterConstruct_responses (s : State) (speed : Byte) (i : Nat) :
    (s.afterConstruct speed i).responses = s.responses ++ [responseWord .ok (zext8 i)] := rfl

@[simp] theorem State.afterConstruct_gpio (s : State) (speed : Byte) (i : Nat) :
    (s.afterConstruct speed i).gpio = initLines s.cfgIn s.gpio := by
  rw [State.afterConstruct, State.respond_gpio, State.setGpio_gpio]

/-- Everything a command can do when it answers a next state, down to the next state. -/
theorem exec_forms {i : Instr} {s t : State} (he : exec i s = .next t) :
    (∃ speed, i = .construct speed ∧
      (((∀ sl ∈ s.slots, sl.status = .active) ∧ t = s.raise .poolExhausted) ∨
        ∃ k, s.Allocates k ∧ bindingsPlain s.notPlain s.cfgIn = true ∧ t = s.afterConstruct speed k)) ∨
    (∃ h, i = .destruct h ∧
      ((∃ sl, s.slots[h]? = some sl ∧ t = (s.setSlot h { sl with status := .inactive }).respond .ok 0#8) ∨
        (s.slots[h]? = none ∧ t = s.respond .ok 0#8))) ∨
    ∃ h, i.checkedHandle? = some h ∧
      ((∃ sl, s.Holds h sl ∧ t = s.afterMotor i h sl) ∨ (s.Invalid h ∧ t = s.raise .handleInvalid)) := by
  obtain ⟨speed, hi, hc⟩ | ⟨h, hi, hd⟩ | ⟨h, hi, ⟨sl, hh, ht⟩ | hv⟩ := exec_cases he
  · exact .inl ⟨speed, hi, execConstruct_cases hc⟩
  · exact .inr (.inl ⟨h, hi, execDestruct_cases hd⟩)
  · exact .inr (.inr ⟨h, hi, .inl ⟨sl, hh, ht.trans (motorResult_eq_afterMotor hi hh)⟩⟩)
  · exact .inr (.inr ⟨h, hi, .inr hv⟩)

/-- A motor command on a valid handle (41_motor_control.md R120). -/
theorem exec_of_holds {i : Instr} {h : Nat} (hi : i.checkedHandle? = some h) {s : State} {sl : Slot}
    (hh : s.Holds h sl) : exec i s = .next (s.afterMotor i h sl) := by
  rw [exec_motor_of_holds hi hh, motorResult_eq_afterMotor hi hh]

/-- CONSTRUCT on a full pool (40_pool.md R110). -/
theorem exec_construct_of_full {speed : Byte} {s : State} (hs : ∀ sl ∈ s.slots, sl.status = .active) :
    exec (.construct speed) s = .next (s.raise .poolExhausted) := by
  simp only [exec, execConstruct, (leastInactive_eq_none_iff _).2 hs]

@[simp] theorem motorSlot_status (i : Instr) (p : Byte) (sl : Slot) : (motorSlot i p sl).status = sl.status := by
  cases i with
  | setpos => simp only [motorSlot]; split <;> rfl
  | _ => rfl

@[simp] theorem motorSlot_bind (i : Instr) (p : Byte) (sl : Slot) : (motorSlot i p sl).bind = sl.bind := by
  cases i with
  | setpos => simp only [motorSlot]; split <;> rfl
  | _ => rfl

/-- Only SETSTEP writes the step size (41_motor_control.md R123). -/
theorem motorSlot_stepSize {i : Instr} (p : Byte) (sl : Slot) (hi : ∀ h z, i ≠ .setstep h z) :
    (motorSlot i p sl).stepSize = sl.stepSize := by
  cases i with
  | setstep h z => exact absurd rfl (hi h z)
  | setpos => simp only [motorSlot]; split <;> rfl
  | _ => rfl

/-- SETPOS stores no position above `POS_MAX` (41_motor_control.md R125). -/
theorem motorSlot_desiredPos_le (i : Instr) {p : Byte} {sl : Slot} (h : sl.desiredPos.toNat ≤ p.toNat) :
    (motorSlot i p sl).desiredPos.toNat ≤ p.toNat := by
  cases i with
  | setpos j v =>
    simp only [motorSlot]
    split
    · exact h
    · next hv => exact Nat.le_of_not_lt hv
  | _ => exact h

theorem wf_motorGpio (i : Instr) (sl : Slot) {g : Memory} (h : g.wf = true) : (motorGpio i sl g).wf = true := by
  cases i with
  | setstep => exact wf_msWrite _ _ h
  | setdir => exact wf_pinWrite _ _ h
  | step => exact wf_pinSet _ h
  | _ => exact h

/-! ### The machine invariant -/

theorem State.Inv.setSlot {s : State} (h : s.Inv) (i : Nat) {sl : Slot} (hp : sl.desiredPos.toNat ≤ s.posMax.toNat)
    (hb : sl.status = .active → bindingsPlain s.notPlain sl.bind = true) : (s.setSlot i sl).Inv := by
  obtain ⟨hn, hg, hpos, hplain⟩ := h
  refine ⟨?_, hg, fun a ha => ?_, fun a ha => ?_⟩
  · simpa [State.PoolSized] using hn
  · obtain hm | rfl := List.mem_or_eq_of_mem_set ha
    · exact hpos a hm
    · exact hp
  · obtain hm | rfl := List.mem_or_eq_of_mem_set ha
    · exact hplain a hm
    · exact hb

theorem State.Inv.setGpio {s : State} (h : s.Inv) {g : Memory} (hg : g.wf = true) : (s.setGpio g).Inv := by
  obtain ⟨hn, -, hslots⟩ := h
  exact ⟨hn, hg, hslots⟩

theorem State.Inv.respond {s : State} (h : s.Inv) (c : ResultCode) (d : Byte) : (s.respond c d).Inv := h

/-- Reset leaves every slot Inactive with position 0 (entry 4). -/
theorem State.Inv.resetBlock {s : State} (h : s.Inv) : s.resetBlock.Inv := by
  obtain ⟨hn, hg, -, -⟩ := h
  refine ⟨by simpa [State.PoolSized] using hn, hg, fun a ha => ?_, fun a ha hact => ?_⟩
  · rw [List.eq_of_mem_replicate ha]; exact Nat.zero_le _
  · rw [List.eq_of_mem_replicate ha] at hact; cases hact

theorem State.Inv.afterMotor {s : State} (h : s.Inv) (i : Instr) {j : Nat} {sl : Slot} (hh : s.Holds j sl) :
    (s.afterMotor i j sl).Inv := by
  have ⟨_, hg, hpos, hplain⟩ := h
  have hslot : (s.setSlot j (motorSlot i s.posMax sl)).Inv :=
    h.setSlot j (motorSlot_desiredPos_le i (hpos sl hh.mem)) fun _ => by
      rw [motorSlot_bind]; exact hplain sl hh.mem hh.2
  exact (hslot.setGpio (wf_motorGpio i sl hg)).respond _ _

/-- A command keeps the invariant. -/
theorem exec_inv {i : Instr} {s t : State} (h : s.Inv) (he : exec i s = .next t) : t.Inv := by
  have ⟨_, hg, hpos, hplain⟩ := h
  obtain ⟨speed, -, ⟨-, rfl⟩ | ⟨j, -, hp, rfl⟩⟩ | ⟨j, -, ⟨sl, hs, rfl⟩ | ⟨-, rfl⟩⟩ |
    ⟨j, -, ⟨sl, hh, rfl⟩ | ⟨-, rfl⟩⟩ := exec_forms he
  · exact h
  · have hslot : (s.setSlot j (Slot.constructed s.cfgIn speed)).Inv := h.setSlot j (Nat.zero_le _) fun _ => hp
    exact (hslot.setGpio (wf_initLines s.cfgIn hg)).respond _ _
  · have hslot : (s.setSlot j { sl with status := .inactive }).Inv :=
      h.setSlot j (hpos sl (List.mem_of_getElem? hs)) fun hact => nomatch hact
    exact hslot.respond _ _
  · exact h
  · exact h.afterMotor i hh
  · exact h

end Sys2Proof.Machine

namespace Sys2Proof.Spec

open Sys2Proof.Machine

/-- Settles O42: each update keeps the invariant, and so does every command and every other input. -/
theorem stepKeepsTheInvariant : Obligations.StepKeepsTheInvariant := by
  intro s t h hstep
  have ⟨_, hg, _, _⟩ := h
  obtain ⟨-, rfl⟩ | ⟨w, cfg, rest, i, -, -, he⟩ | ⟨w, cfg, rest, e, -, -, rfl⟩ | ⟨r, v, rest, -, rfl⟩ |
    ⟨rest, -, rfl⟩ := step_cases hstep
  · exact h
  · exact exec_inv (s := s.sample cfg rest) h he
  · exact h
  · exact State.Inv.setGpio (s := s.withInputs rest) h (Memory.wf_write r v hg)
  · exact State.Inv.resetBlock (s := s.withInputs rest) h

end Sys2Proof.Spec

/-! ### Bits of the register file that a command leaves, and bits it decides -/

namespace Sys2Proof.Machine

open Sys2Proof.Spec

/-- The three microstep roles. -/
abbrev msRoles : List LineRole := [.ms1, .ms2, .ms3]

/-- Apart lines have apart microstep lines. -/
theorem msApart_of_selfApart {c : Bindings} (h : c.SelfApart) : MsApart c :=
  fun L _ M _ => h L (mem_roleOrder L) M (mem_roleOrder M)

/-! #### The fields a line shows -/

theorem Slot.shows_of_not_ms {sl : Slot} {L : LineRole} (hL : L ∉ msRoles) (z : StepSize) :
    { sl with stepSize := z }.shows L = sl.shows L := by
  cases L <;> simp_all [Slot.shows]

theorem Slot.shows_of_ne_dir {sl : Slot} {L : LineRole} (hL : L ≠ .dir) (d : Direction) :
    { sl with dir := d }.shows L = sl.shows L := by
  cases L <;> simp_all [Slot.shows]

/-- A slot just constructed shows low on every line that shows a field (30_encoding.md R91, R93). -/
theorem Slot.eq_false_of_constructed_shows {c : Bindings} {speed : Byte} {L : LineRole} {v : Bool}
    (hv : (Slot.constructed c speed).shows L = some v) : v = false := by
  cases L <;> simp_all [Slot.shows, encMs, encDir]

section Bits

variable {g : Memory} {c : Bindings} {sl : Slot} {a : Area} {L : LineRole} {r : RegId} {k : Nat}

/-! #### The motor commands -/

/-- A write of a line leaves the bits of an area apart from it. -/
theorem bitOf_pinWrite_of_apart {b : PinBinding} (h : (portArea b).Apart a) (ha : a.covers r k = true) (v : Bool)
    (hg : g.wf = true) : bitOf (pinWrite b v g) r k = bitOf g r k := by
  rw [bitOf_pinWrite b v r k hg, h.symm.covers_eq_false ha]; rfl

/-- SETSTEP leaves the bits of an area apart from the microstep lines (41_motor_control.md R130). -/
theorem bitOf_msWrite_of_apart (h : ∀ M ∈ msRoles, (portArea (c.get M)).Apart a) (ha : a.covers r k = true)
    (m : MsLines) (hg : g.wf = true) : bitOf (msWrite c m g) r k = bitOf g r k := by
  have hg1 := wf_pinWrite c.ms1 m.ms1 hg
  calc bitOf (msWrite c m g) r k
      = bitOf (pinWrite c.ms2 m.ms2 (pinWrite c.ms1 m.ms1 g)) r k :=
        bitOf_pinWrite_of_apart (h .ms3 (by decide)) ha _ (wf_pinWrite _ _ hg1)
    _ = bitOf (pinWrite c.ms1 m.ms1 g) r k := bitOf_pinWrite_of_apart (h .ms2 (by decide)) ha _ hg1
    _ = bitOf g r k := bitOf_pinWrite_of_apart (h .ms1 (by decide)) ha _ hg

/-- SETSTEP makes the data-register bits of the microstep lines the encoded ones, where these are apart
(10_state.md R33). -/
theorem bitOf_msWrite_shows (h : MsApart sl.bind) {z : StepSize} (hL : L ∈ msRoles)
    (hm : (sl.bind.get L).mask.getLsbD k = true) {v : Bool} (hv : { sl with stepSize := z }.shows L = some v)
    (hg : g.wf = true) : bitOf (msWrite sl.bind (encMs z) g) (sl.bind.get L).port k = v := by
  have hown := portArea_covers_own _ hm
  have hother : ∀ M ∈ msRoles, L ≠ M → (portArea (sl.bind.get M)).covers (sl.bind.get L).port k = false :=
    fun M hM hne => ((h L hL M hM).1 hne).covers_eq_false hown
  have h1 := hother .ms1 (by decide)
  have h2 := hother .ms2 (by decide)
  have h3 := hother .ms3 (by decide)
  rw [bitOf_msWrite _ _ _ _ hg]
  simp only [List.mem_cons, List.not_mem_nil, or_false] at hL
  obtain rfl | rfl | rfl := hL <;> simp_all [Slot.shows]

/-- A motor command leaves the bits of an area apart from every data register of its slot (41_motor_control.md R130). -/
theorem bitOf_motorGpio_of_apart (h : ∀ M, (portArea (sl.bind.get M)).Apart a) (ha : a.covers r k = true) (i : Instr)
    (hg : g.wf = true) : bitOf (motorGpio i sl g) r k = bitOf g r k := by
  cases i with
  | setstep j z => exact bitOf_msWrite_of_apart (fun M _ => h M) ha _ hg
  | setdir j d => exact bitOf_pinWrite_of_apart (h .dir) ha _ hg
  | step j => exact bitOf_pinWrite_of_apart (h .step) ha true hg
  | _ => rfl

/-- After a motor command the data-register bits of its slot show the slot's new fields, if they showed the old ones
(10_state.md R33, R34). -/
theorem bitOf_motorGpio_shows (h : sl.bind.SelfApart) (i : Instr) (p : Byte)
    (hm : (sl.bind.get L).mask.getLsbD k = true) (hg : g.wf = true)
    (hold : ∀ v ∈ sl.shows L, bitOf g (sl.bind.get L).port k = v) :
    ∀ v ∈ (motorSlot i p sl).shows L, bitOf (motorGpio i sl g) (sl.bind.get L).port k = v := by
  have hown := portArea_covers_own _ hm
  have hother : ∀ M, M ≠ L → (portArea (sl.bind.get M)).Apart (portArea (sl.bind.get L)) :=
    fun M => (h M (mem_roleOrder M) L (mem_roleOrder L)).1
  intro v hv
  cases i with
  | setstep j z =>
    by_cases hL : L ∈ msRoles
    · exact bitOf_msWrite_shows (msApart_of_selfApart h) hL hm hv hg
    · exact (bitOf_msWrite_of_apart (fun M hM => hother M fun e => hL (e ▸ hM)) hown _ hg).trans
        (hold v ((Slot.shows_of_not_ms hL z).symm.trans hv))
  | setdir j d =>
    by_cases hL : L = .dir
    · subst hL
      exact ((bitOf_pinWrite _ _ _ _ hg).trans (if_pos hown)).trans (Option.some.inj hv)
    · exact (bitOf_pinWrite_of_apart (hother .dir (Ne.symm hL)) hown _ hg).trans
        (hold v ((Slot.shows_of_ne_dir hL d).symm.trans hv))
  | step j =>
    by_cases hL : L = .step
    · subst hL; cases hv
    · exact (bitOf_pinWrite_of_apart (hother .step (Ne.symm hL)) hown true hg).trans (hold v hv)
  | setpos j p' =>
    refine hold v (Eq.trans ?_ hv)
    simp only [motorSlot]; split <;> rfl
  | _ => exact hold v hv

/-! #### CONSTRUCT -/

/-- The initialisation sequence over a list of roles (40_pool.md R111). -/
def initRoles (c : Bindings) (Ls : List LineRole) (g : Memory) : Memory := Ls.foldl (fun g L => initLine (c.get L) g) g

theorem initLines_eq_initRoles (c : Bindings) (g : Memory) : initLines c g = initRoles c roleOrder g := rfl

/-- The microstep lines come last in the sequence. -/
theorem initLines_eq_initRoles_ms (c : Bindings) (g : Memory) :
    initLines c g = initRoles c msRoles (initRoles c [.dir, .enable, .step] g) := by
  rw [initLines, show roleOrder = [.dir, .enable, .step] ++ msRoles from rfl, List.foldl_append, initRoles, initRoles]

theorem wf_initRoles (c : Bindings) (Ls : List LineRole) {g : Memory} (h : g.wf = true) :
    (initRoles c Ls g).wf = true := by
  induction Ls generalizing g with
  | nil => exact h
  | cons M Ls ih => exact ih (wf_initLine (c.get M) h)

/-- The sequence only sets bits outside the data-register areas of its lines, those of their data-direction areas. -/
theorem bitOf_initRoles_of_no_port {Ls : List LineRole} (hp : ∀ M ∈ Ls, (portArea (c.get M)).covers r k = false)
    (hg : g.wf = true) :
    bitOf (initRoles c Ls g) r k = (bitOf g r k || Ls.any fun M => (ddrArea (c.get M)).covers r k) := by
  induction Ls generalizing g with
  | nil => simp [initRoles]
  | cons M Ls ih =>
    obtain ⟨hM, hp⟩ := List.forall_mem_cons.1 hp
    have hstep : initRoles c (M :: Ls) g = initRoles c Ls (initLine (c.get M) g) := rfl
    rw [hstep, ih hp (wf_initLine _ hg), bitOf_initLine _ _ _ hg, hM, List.any_cons]
    cases (ddrArea (c.get M)).covers r k <;> simp

/-- The sequence only clears bits outside the data-direction areas of its lines, those of their data-register areas. -/
theorem bitOf_initRoles_of_no_ddr {Ls : List LineRole} (hd : ∀ M ∈ Ls, (ddrArea (c.get M)).covers r k = false)
    (hg : g.wf = true) :
    bitOf (initRoles c Ls g) r k = (bitOf g r k && !Ls.any fun M => (portArea (c.get M)).covers r k) := by
  induction Ls generalizing g with
  | nil => simp [initRoles]
  | cons M Ls ih =>
    obtain ⟨hM, hd⟩ := List.forall_mem_cons.1 hd
    have hstep : initRoles c (M :: Ls) g = initRoles c Ls (initLine (c.get M) g) := rfl
    rw [hstep, ih hd (wf_initLine _ hg), bitOf_initLine _ _ _ hg, hM, List.any_cons]
    cases (portArea (c.get M)).covers r k <;> simp

/-- The sequence leaves each of its lines driven low, where no data-register area of them shares a bit with a
data-direction area (40_pool.md R111; entry 16). -/
theorem level_initRoles {Ls : List LineRole} (h : ∀ M ∈ Ls, ∀ N ∈ Ls, (portArea (c.get M)).Apart (ddrArea (c.get N)))
    (hL : L ∈ Ls) (hm : (c.get L).mask.getLsbD k = true) (hg : g.wf = true) :
    level (initRoles c Ls g) (c.get L) k = .drive false := by
  have hport := portArea_covers_own _ hm
  have hddr := ddrArea_covers_own _ hm
  rw [level_eq_drive_iff, bitOf_initRoles_of_no_port (fun M hM => (h M hM L hL).symm.covers_eq_false hddr) hg,
    bitOf_initRoles_of_no_ddr (fun M hM => (h L hL M hM).covers_eq_false hport) hg,
    List.any_eq_true.2 ⟨L, hL, hddr⟩, List.any_eq_true.2 ⟨L, hL, hport⟩]
  simp

end Bits

end Sys2Proof.Machine

/-! ### The lines of the Active slots -/

namespace Sys2Proof.Machine

open Sys2Proof.Spec

/-- A slot's lines go on being shown when no data-direction bit of theirs is cleared and no data-register bit of theirs
but STEP's changes. -/
theorem Slot.LinesShown.of_bits {g g' : Memory} {sl : Slot} (h : sl.LinesShown g)
    (hd : ∀ L k, (sl.bind.get L).mask.getLsbD k = true →
      bitOf g (sl.bind.get L).ddr k = true → bitOf g' (sl.bind.get L).ddr k = true)
    (hp : ∀ L k, L ≠ .step → (sl.bind.get L).mask.getLsbD k = true →
      bitOf g' (sl.bind.get L).port k = bitOf g (sl.bind.get L).port k) : sl.LinesShown g' := by
  rw [Slot.linesShown_iff] at h ⊢
  intro L k h8 hm
  obtain ⟨hddr, hport⟩ := h L k h8 hm
  refine ⟨hd L k hm hddr, fun v hv => ?_⟩
  rw [hp L k (fun e => by subst e; cases hv) hm, hport v hv]

/-- A wired pool stays wired while every Active slot was one before, with the same bindings. -/
theorem State.Wired.of_holds {s t : State} (h : s.Wired)
    (hst : ∀ j b, t.Holds j b → ∃ a, s.Holds j a ∧ b.bind = a.bind) : t.Wired := by
  obtain ⟨hself, hlines⟩ := h
  refine ⟨fun b hb hact => ?_, fun i j a b hij ha hb => ?_⟩
  · obtain ⟨j, hj⟩ := State.exists_holds hb hact
    obtain ⟨a, ha, e⟩ := hst j b hj
    exact e ▸ hself a ha.mem ha.2
  · obtain ⟨a', ha', ea⟩ := hst i a ha
    obtain ⟨b', hb', eb⟩ := hst j b hb
    rw [ea, eb]
    exact hlines i j a' b' hij ha' hb'

/-- Wired and shown is kept where every Active slot was the same Active slot before and no register changed. -/
theorem State.wired_shown_of_holds {s t : State} (hw : s.Wired) (hs : s.PinsShown) (hst : ∀ j b, t.Holds j b → s.Holds j b)
    (hg : t.gpio = s.gpio) : t.Wired ∧ t.PinsShown := by
  refine ⟨hw.of_holds fun j b hb => ⟨b, hst j b hb, rfl⟩, fun b hb hact => ?_⟩
  obtain ⟨j, hj⟩ := State.exists_holds hb hact
  rw [hg]
  exact hs b (hst j b hj).mem hact

/-! #### Motor commands -/

theorem State.Holds.of_afterMotor {s : State} {i : Instr} {h j : Nat} {sl b : Slot} (hh : s.Holds h sl)
    (hb : (s.afterMotor i h sl).Holds j b) : (j = h ∧ b = motorSlot i s.posMax sl) ∨ (j ≠ h ∧ s.Holds j b) :=
  hb.of_set hh.lt rfl

theorem State.Wired.afterMotor {s : State} (hw : s.Wired) (i : Instr) {h : Nat} {sl : Slot} (hh : s.Holds h sl) :
    (s.afterMotor i h sl).Wired :=
  hw.of_holds fun j b hb => by
    obtain ⟨rfl, rfl⟩ | ⟨-, hb⟩ := hh.of_afterMotor hb
    · exact ⟨sl, hh, motorSlot_bind i s.posMax sl⟩
    · exact ⟨b, hb, rfl⟩

/-- A motor command makes its own slot's lines show the new fields and leaves every other slot's lines. -/
theorem State.PinsShown.afterMotor {s : State} (hs : s.PinsShown) (hg : s.gpio.wf = true) (hw : s.Wired) (i : Instr)
    {h : Nat} {sl : Slot} (hh : s.Holds h sl) : (s.afterMotor i h sl).PinsShown := by
  obtain ⟨hself, hlines⟩ := hw
  have hapart := hself sl hh.mem hh.2
  intro b hb hact
  obtain ⟨j, hj⟩ := State.exists_holds hb hact
  rw [State.afterMotor_gpio]
  obtain ⟨-, rfl⟩ | ⟨hjh, hb⟩ := hh.of_afterMotor hj
  · have hold := Slot.linesShown_iff.1 (hs sl hh.mem hh.2)
    simp only [Slot.linesShown_iff, motorSlot_bind]
    intro L k h8 hm
    obtain ⟨hddr, hport⟩ := hold L k h8 hm
    refine ⟨?_, bitOf_motorGpio_shows hapart i s.posMax hm hg hport⟩
    rwa [bitOf_motorGpio_of_apart (fun M => (hapart M (mem_roleOrder M) L (mem_roleOrder L)).2)
      (ddrArea_covers_own _ hm) i hg]
  · have hother : ∀ M L, _ := fun M L => hlines h j sl b (Ne.symm hjh) hh hb M (mem_roleOrder M) L (mem_roleOrder L)
    refine (hs b hb.mem hact).of_bits (fun L k hm hddr => ?_) fun L k _ hm => ?_
    · rwa [bitOf_motorGpio_of_apart (fun M => (hother M L).2.1) (ddrArea_covers_own _ hm) i hg]
    · exact bitOf_motorGpio_of_apart (fun M => (hother M L).1) (portArea_covers_own _ hm) i hg

/-! #### CONSTRUCT -/

theorem State.Holds.of_afterConstruct {s : State} {speed : Byte} {i j : Nat} {b : Slot} (hi : s.Allocates i)
    (hb : (s.afterConstruct speed i).Holds j b) :
    (j = i ∧ b = Slot.constructed s.cfgIn speed) ∨ (j ≠ i ∧ s.Holds j b) :=
  hb.of_set hi.lt rfl

/-- CONSTRUCT on lines apart keeps the pool wired. -/
theorem State.Wired.afterConstruct {s : State} (hw : s.Wired) (speed : Byte) {i : Nat} (hi : s.Allocates i)
    (hself : s.cfgIn.SelfApart) (hapart : ∀ sl ∈ s.slots, sl.status = .active → s.cfgIn.LinesApart sl.bind) :
    (s.afterConstruct speed i).Wired := by
  obtain ⟨hpool, hlines⟩ := hw
  refine ⟨fun b hb hact => ?_, fun j k a b hjk ha hb => ?_⟩
  · obtain ⟨j, hj⟩ := State.exists_holds hb hact
    obtain ⟨-, rfl⟩ | ⟨-, hj⟩ := State.Holds.of_afterConstruct hi hj
    · exact hself
    · exact hpool b hj.mem hact
  · obtain ⟨hji, rfl⟩ | ⟨-, ha'⟩ := State.Holds.of_afterConstruct hi ha <;>
      obtain ⟨hki, rfl⟩ | ⟨-, hb'⟩ := State.Holds.of_afterConstruct hi hb
    · exact absurd (hji.trans hki.symm) hjk
    · exact hapart b hb'.mem hb'.2
    · exact linesApart_symm (hapart a ha'.mem ha'.2)
    · exact hlines j k a b hjk ha' hb'

/-- A slot just constructed on lines apart shows its fields (40_pool.md R111, R112). -/
theorem Slot.linesShown_constructed {c : Bindings} (h : c.SelfApart) (speed : Byte) {g : Memory} (hg : g.wf = true) :
    (Slot.constructed c speed).LinesShown (initLines c g) := by
  intro L hL k _ hm
  have hlow : level (initLines c g) (c.get L) k = .drive false :=
    level_initRoles (fun M hM N hN => (h M hM N hN).2) hL hm hg
  simp only [Slot.constructed_bind, hlow]
  exact ⟨nofun, fun v hv => by rw [Slot.eq_false_of_constructed_shows hv]⟩

/-- CONSTRUCT leaves the lines of slots apart from its own. -/
theorem Slot.LinesShown.initLines {g : Memory} {sl : Slot} (h : sl.LinesShown g) {c : Bindings}
    (hc : c.LinesApart sl.bind) (hg : g.wf = true) : sl.LinesShown (initLines c g) := by
  have hport : ∀ M L k, (sl.bind.get L).mask.getLsbD k = true →
      (portArea (c.get M)).covers (sl.bind.get L).port k = false ∧
        (portArea (c.get M)).covers (sl.bind.get L).ddr k = false ∧
        (ddrArea (c.get M)).covers (sl.bind.get L).port k = false := by
    intro M L k hm
    obtain ⟨hpp, hpd, hdp⟩ := hc M (mem_roleOrder M) L (mem_roleOrder L)
    exact ⟨hpp.symm.covers_eq_false (portArea_covers_own _ hm), hpd.symm.covers_eq_false (ddrArea_covers_own _ hm),
      hdp.covers_eq_false (portArea_covers_own _ hm)⟩
  refine h.of_bits (fun L k hm hddr => ?_) fun L k _ hm => ?_
  · rw [initLines_eq_initRoles, bitOf_initRoles_of_no_port (fun M _ => (hport M L k hm).2.1) hg, hddr, Bool.true_or]
  · have hnone : (roleOrder.any fun M => (portArea (c.get M)).covers (sl.bind.get L).port k) = false :=
      List.any_eq_false.2 fun M _ => by simp [(hport M L k hm).1]
    rw [initLines_eq_initRoles, bitOf_initRoles_of_no_ddr (fun M _ => (hport M L k hm).2.2) hg, hnone]
    simp

theorem State.PinsShown.afterConstruct {s : State} (hs : s.PinsShown) (hg : s.gpio.wf = true) (speed : Byte) {i : Nat}
    (hi : s.Allocates i) (hself : s.cfgIn.SelfApart)
    (hapart : ∀ sl ∈ s.slots, sl.status = .active → s.cfgIn.LinesApart sl.bind) :
    (s.afterConstruct speed i).PinsShown := by
  intro b hb hact
  obtain ⟨j, hj⟩ := State.exists_holds hb hact
  rw [State.afterConstruct_gpio]
  obtain ⟨-, rfl⟩ | ⟨-, hj⟩ := State.Holds.of_afterConstruct hi hj
  · exact Slot.linesShown_constructed hself speed hg
  · exact (hs b hj.mem hact).initLines (hapart b hj.mem hact) hg

/-! #### One command, one external write -/

/-- After DESTRUCT every Active slot is as it was. -/
theorem State.Holds.of_destroyed {s t : State} {h j : Nat} {sl b : Slot} (hs : s.slots[h]? = some sl)
    (ht : t.slots = s.slots.set h { sl with status := .inactive }) (hb : t.Holds j b) : j ≠ h ∧ s.Holds j b := by
  obtain ⟨-, rfl⟩ | hold := hb.of_set (List.getElem?_eq_some_iff.1 hs).1 ht
  · cases hb.2
  · exact hold

/-- A command keeps a wired and shown pool, a CONSTRUCT bringing lines apart from each other and from the pool's. -/
theorem exec_wired_shown {i : Instr} {s t : State} (hg : s.gpio.wf = true) (hw : s.Wired) (hs : s.PinsShown)
    (hc : ∀ speed, i = .construct speed →
      s.cfgIn.SelfApart ∧ ∀ sl ∈ s.slots, sl.status = .active → s.cfgIn.LinesApart sl.bind)
    (he : exec i s = .next t) : t.Wired ∧ t.PinsShown := by
  obtain ⟨speed, hi, ⟨-, rfl⟩ | ⟨j, hj, -, rfl⟩⟩ | ⟨h, -, ⟨sl, hsl, rfl⟩ | ⟨-, rfl⟩⟩ |
    ⟨h, -, ⟨sl, hh, rfl⟩ | ⟨-, rfl⟩⟩ := exec_forms he
  · exact ⟨hw, hs⟩
  · obtain ⟨hself, hapart⟩ := hc speed hi
    exact ⟨hw.afterConstruct speed hj hself hapart, hs.afterConstruct hg speed hj hself hapart⟩
  · exact State.wired_shown_of_holds hw hs (fun j b hb => (hb.of_destroyed hsl rfl).2) rfl
  · exact ⟨hw, hs⟩
  · exact ⟨hw.afterMotor i hh, hs.afterMotor hg hw i hh⟩
  · exact ⟨hw, hs⟩

/-- An external write that leaves the lines to the block keeps them shown (10_state.md R33). -/
theorem State.PinsShown.externalWrite {s : State} (hs : s.PinsShown) (hg : s.gpio.wf = true) {r : RegId} {v : Byte}
    (hu : s.Undisturbed (.external r v)) : (s.externalWrite r v).PinsShown := by
  intro sl hm hact
  refine (hs sl hm hact).of_bits (fun L k hk hddr => ?_) fun L k hL hk => ?_
  · rw [State.externalWrite_gpio, bitOf_write _ _ _ _ hg]
    split
    · next e =>
      have hset := (byte_and_eq_zero_iff _ _).1 ((hu sl hm hact L (mem_roleOrder L)).1 e.symm) k (BitVec.lt_of_getLsbD hk)
      simpa [hk, BitVec.lt_of_getLsbD hk] using hset
    · exact hddr
  · rw [State.externalWrite_gpio, bitOf_write _ _ _ _ hg]
    split
    · next e =>
      have hsame := (byte_and_eq_zero_iff _ _).1 ((hu sl hm hact L (mem_roleOrder L)).2 hL e.symm) k
        (BitVec.lt_of_getLsbD hk)
      simpa [hk, bitOf, e] using hsame
    · rfl

/-- No slot of a reset block is Active (70_reset_and_hazards.md R190). -/
theorem State.not_holds_resetBlock {s : State} {j : Nat} {b : Slot} : ¬ s.resetBlock.Holds j b := by
  intro hb
  have hact := hb.2
  rw [List.eq_of_mem_replicate hb.mem] at hact
  cases hact

end Sys2Proof.Machine

namespace Sys2Proof.Spec

open Sys2Proof.Machine

/-- Settles O44: by the step's cases; a motor command acts on its own lines only, a CONSTRUCT on lines apart from them. -/
theorem stepKeepsLinesShowingTheirFields : Obligations.StepKeepsLinesShowingTheirFields := by
  intro s t hg hw hs hin hstep
  obtain ⟨-, rfl⟩ | ⟨w, cfg, rest, i, hi, hd, he⟩ | ⟨w, cfg, rest, e, -, -, rfl⟩ | ⟨r, v, rest, hi, rfl⟩ |
    ⟨rest, -, rfl⟩ := step_cases hstep
  · exact ⟨hw, hs⟩
  · have hu : s.Undisturbed (.command w cfg) := hin _ (by rw [hi]; rfl)
    exact exec_wired_shown (s := s.sample cfg rest) hg hw hs (fun speed hc => hu speed (hc ▸ hd)) he
  · exact ⟨hw, hs⟩
  · have hu : s.Undisturbed (.external r v) := hin _ (by rw [hi]; rfl)
    exact ⟨hw, State.PinsShown.externalWrite (s := s.withInputs rest) hs hg hu⟩
  · exact State.wired_shown_of_holds hw hs (fun j b hb => absurd hb State.not_holds_resetBlock) rfl

end Sys2Proof.Spec

/-! ### One slot's microstep lines -/

namespace Sys2Proof.Machine

open Sys2Proof.Spec

theorem State.Holds.unique {s : State} {j : Nat} {a b : Slot} (ha : s.Holds j a) (hb : s.Holds j b) : b = a :=
  Option.some.inj (hb.1.symm.trans ha.1)

theorem State.Allocates.unique {s : State} {i j : Nat} (hi : s.Allocates i) (hj : s.Allocates j) : i = j :=
  Option.some.inj (((leastInactive_eq_some_iff _ _).2 hi).symm.trans ((leastInactive_eq_some_iff _ _).2 hj))

/-- CONSTRUCT allocates an Inactive slot, so no Active one. -/
theorem State.Allocates.ne_of_holds {s : State} {i j : Nat} {a : Slot} (hi : s.Allocates i) (ha : s.Holds j a) :
    j ≠ i := by
  rintro rfl
  obtain ⟨⟨sl, hsl, hinactive⟩, -⟩ := hi
  rw [Option.some.inj (hsl.symm.trans ha.1), ha.2] at hinactive
  cases hinactive

/-- A CONSTRUCT that completes allocates the lowest Inactive slot (40_pool.md R110). -/
theorem eq_afterConstruct_of_allocates {s t : State} {speed : Byte} {i : Nat} (hi : s.Allocates i)
    (he : exec (.construct speed) s = .next t) : t = s.afterConstruct speed i := by
  obtain ⟨hfull, -⟩ | ⟨j, hj, -, rfl⟩ := execConstruct_cases he
  · obtain ⟨⟨a, hs, hinactive⟩, -⟩ := hi
    rw [hfull a (List.mem_of_getElem? hs)] at hinactive
    cases hinactive
  · rw [hi.unique hj]; rfl

/-- A slot that is Active before and after a command is as before, or a motor command named it (10_state.md R37). -/
theorem exec_holds {i : Instr} {s t : State} {j : Nat} {a b : Slot} (he : exec i s = .next t) (ha : s.Holds j a)
    (hb : t.Holds j b) : b = a ∨ (i.checkedHandle? = some j ∧ b = motorSlot i s.posMax a) := by
  obtain ⟨speed, -, ⟨-, rfl⟩ | ⟨k, hk, -, rfl⟩⟩ | ⟨h, -, ⟨sl, hsl, rfl⟩ | ⟨-, rfl⟩⟩ |
    ⟨h, hi, ⟨sl, hh, rfl⟩ | ⟨-, rfl⟩⟩ := exec_forms he
  · exact .inl (ha.unique hb)
  · obtain ⟨hjk, -⟩ | ⟨-, hold⟩ := State.Holds.of_afterConstruct hk hb
    · exact absurd hjk (hk.ne_of_holds ha)
    · exact .inl (ha.unique hold)
  · exact .inl (ha.unique (hb.of_destroyed hsl rfl).2)
  · exact .inl (ha.unique hb)
  · obtain ⟨rfl, rfl⟩ | ⟨-, hold⟩ := hh.of_afterMotor hb
    · exact .inr ⟨hi, by rw [ha.unique hh]⟩
    · exact .inl (ha.unique hold)
  · exact .inl (ha.unique hb)

/-- A slot that is Active before and after a step has the same bindings, and the same step size unless a SETSTEP named
it (10_state.md R23, R25). -/
theorem step_holds {s t : State} {j : Nat} {a b : Slot} (hstep : step s = .next t) (ha : s.Holds j a)
    (hb : t.Holds j b) (hz : ∀ w cfg rest z, s.inputs = .command w cfg :: rest → decode w ≠ .ok (.setstep j z)) :
    b.bind = a.bind ∧ b.stepSize = a.stepSize := by
  have hsame : b = a → b.bind = a.bind ∧ b.stepSize = a.stepSize := by rintro rfl; exact ⟨rfl, rfl⟩
  obtain ⟨-, rfl⟩ | ⟨w, cfg, rest, i, hi, hd, he⟩ | ⟨w, cfg, rest, e, -, -, rfl⟩ | ⟨r, v, rest, -, rfl⟩ |
    ⟨rest, -, rfl⟩ := step_cases hstep
  · exact hsame (ha.unique hb)
  · obtain rfl | ⟨hj, rfl⟩ := exec_holds (s := s.sample cfg rest) he ha hb
    · exact ⟨rfl, rfl⟩
    · refine ⟨motorSlot_bind i s.posMax a, motorSlot_stepSize s.posMax a fun h z e => ?_⟩
      subst e
      cases hj
      exact hz w cfg rest z hi hd
  · exact hsame (ha.unique hb)
  · exact hsame (ha.unique hb)
  · exact absurd hb State.not_holds_resetBlock

theorem Slot.exists_shows_of_ms {sl : Slot} {L : LineRole} (hL : L ∈ msRoles) : ∃ v, sl.shows L = some v := by
  cases L <;> simp_all [Slot.shows]

/-- What a microstep line shows depends on the step size alone (30_encoding.md R91). -/
theorem Slot.shows_eq_of_ms {a b : Slot} {L : LineRole} (hL : L ∈ msRoles) (h : b.stepSize = a.stepSize) :
    b.shows L = a.shows L := by
  cases L <;> simp_all [Slot.shows]

section Lines

variable {g g' : Memory} {a b : Slot} {L : LineRole}

/-- A line that shows its value is an output (10_state.md R32). -/
theorem bitOf_ddr_of_lineShows (h : LineShows g a L) (hL : L ∈ msRoles) {k : Nat}
    (hm : (a.bind.get L).mask.getLsbD k = true) : bitOf g (a.bind.get L).ddr k = true := by
  obtain ⟨v, hv⟩ := Slot.exists_shows_of_ms (sl := a) hL
  exact (level_eq_drive_iff.1 (h k v (BitVec.lt_of_getLsbD hm) hm hv)).1

/-- After CONSTRUCT the microstep lines show Full (40_pool.md R112). -/
theorem lineShows_constructed {c : Bindings} (h : MsApart c) (speed : Byte) (hL : L ∈ msRoles) (hg : g.wf = true) :
    LineShows (initLines c g) (Slot.constructed c speed) L := by
  intro k v _ hm hv
  rw [Slot.eq_false_of_constructed_shows hv, initLines_eq_initRoles_ms]
  exact level_initRoles (fun M hM N hN => (h M hM N hN).2) hL hm (wf_initRoles _ _ hg)

/-- After SETSTEP the microstep lines show the new step size (41_motor_control.md R123). -/
theorem lineShows_msWrite (h : MsApart a.bind) (hs : LineShows g a L) (z : StepSize) (hL : L ∈ msRoles)
    (hg : g.wf = true) : LineShows (msWrite a.bind (encMs z) g) { a with stepSize := z } L := by
  intro k v _ hm hv
  refine level_eq_drive_iff.2 ⟨?_, bitOf_msWrite_shows h hL hm hv hg⟩
  rw [bitOf_msWrite_of_apart (fun M hM => (h M hM L hL).2) (ddrArea_covers_own _ hm) _ hg]
  exact bitOf_ddr_of_lineShows hs hL hm

/-- Untouched microstep lines go on showing an unchanged step size. -/
theorem lineShows_of_untouched (hs : LineShows g a L) (hu : LineUntouched g g' a.bind L) (hL : L ∈ msRoles)
    (hbind : b.bind = a.bind) (hsize : b.stepSize = a.stepSize) : LineShows g' b L := by
  intro k v h8 hm hv
  rw [hbind] at hm ⊢
  rw [Slot.shows_eq_of_ms hL hsize] at hv
  obtain ⟨hport, hddr⟩ := hu k h8 hm
  rw [level_eq_drive_iff, hport, hddr]
  exact level_eq_drive_iff.1 (hs k v h8 hm hv)

end Lines

end Sys2Proof.Machine

namespace Sys2Proof.Spec

open Sys2Proof.Machine

/-- Settles O45: the slot was allocated, or set by SETSTEP, or neither it nor its lines changed. -/
theorem microstepLinesFollowStepSize : Obligations.MicrostepLinesFollowStepSize := by
  rintro s t i sl hg hstep hh hms
    (⟨w, cfg, rest, speed, hi, hd, ha⟩ | ⟨old, hold, hshow, ⟨w, cfg, rest, z, hi, hd⟩ | ⟨hz, hu⟩⟩) L hL
  · rw [step_of_legal hi hd] at hstep
    have ha : (s.sample cfg rest).Allocates i := ha
    obtain rfl := eq_afterConstruct_of_allocates ha hstep
    rw [State.afterConstruct_gpio]
    obtain ⟨-, rfl⟩ | ⟨hne, -⟩ := State.Holds.of_afterConstruct ha hh
    · exact lineShows_constructed hms speed hL hg
    · exact absurd rfl hne
  · rw [step_of_legal hi hd, exec_of_holds (s := s.sample cfg rest) rfl hold] at hstep
    cases hstep
    obtain ⟨-, rfl⟩ | ⟨hne, -⟩ := State.Holds.of_afterMotor (s := s.sample cfg rest) hold hh
    · exact lineShows_msWrite (a := old) hms (hshow L hL) z hL hg
    · exact absurd rfl hne
  · obtain ⟨hbind, hsize⟩ := step_holds hstep hold hh hz
    exact lineShows_of_untouched (hshow L hL) (hu L hL) hL hbind hsize

end Sys2Proof.Spec

/-! ### What cannot be observed -/

namespace Sys2Proof.Machine

/-! #### States that differ in the fields of Inactive slots (10_state.md R35) -/

theorem State.alike_iff {s t : State} :
    s.Alike t ↔ ∃ l, List.Forall₂ Slot.Alike s.slots l ∧ t = { s with slots := l } := by
  constructor
  · exact fun ⟨hl, ht⟩ => ⟨t.slots, hl, ht⟩
  · rintro ⟨l, hl, rfl⟩; exact ⟨hl, rfl⟩

theorem Slot.Alike.refl (a : Slot) : a.Alike a := ⟨rfl, fun _ => rfl⟩

/-- Inactive slots are alike whatever they hold. -/
theorem Slot.alike_of_inactive {a b : Slot} (ha : a.status = .inactive) (hb : b.status = .inactive) : a.Alike b :=
  ⟨ha.trans hb.symm, fun hact => nomatch ha.symm.trans hact⟩

section Pointwise

variable {α β : Type} {r : α → β → Prop} {l : List α} {l' : List β}

/-- Pointwise related lists have related elements at every index. -/
theorem forall₂_getElem? (h : List.Forall₂ r l l') (j : Nat) :
    (l[j]? = none ∧ l'[j]? = none) ∨ ∃ a b, l[j]? = some a ∧ l'[j]? = some b ∧ r a b := by
  induction h generalizing j with
  | nil => exact .inl ⟨rfl, rfl⟩
  | cons hab _ ih =>
    cases j with
    | zero => exact .inr ⟨_, _, rfl, rfl, hab⟩
    | succ j => exact ih j

/-- Writing related elements keeps two lists pointwise related. -/
theorem forall₂_set (h : List.Forall₂ r l l') (j : Nat) {a : α} {b : β} (hab : r a b) :
    List.Forall₂ r (l.set j a) (l'.set j b) := by
  induction h generalizing j with
  | nil => exact .nil
  | cons hcd ht ih =>
    cases j with
    | zero => exact .cons hab ht
    | succ j => exact .cons hcd (ih j)

end Pointwise

/-- The scan of CONSTRUCT sees the status bits alone (40_pool.md R110). -/
theorem leastInactive_eq_of_alike {l l' : List Slot} (h : List.Forall₂ Slot.Alike l l') :
    leastInactive l' = leastInactive l := by
  induction h with
  | nil => rfl
  | cons hab _ ih => simp only [leastInactive, ih, hab.1]

section Alike

variable {s t : State}

theorem State.Alike.respond (h : s.Alike t) (c : ResultCode) (d : Byte) : (s.respond c d).Alike (t.respond c d) := by
  obtain ⟨l, hl, rfl⟩ := State.alike_iff.1 h; exact ⟨hl, rfl⟩

theorem State.Alike.setSlot (h : s.Alike t) (j : Nat) {a b : Slot} (hab : a.Alike b) :
    (s.setSlot j a).Alike (t.setSlot j b) := by
  obtain ⟨l, hl, rfl⟩ := State.alike_iff.1 h; exact ⟨forall₂_set hl j hab, rfl⟩

theorem State.Alike.setGpio (h : s.Alike t) (g : Memory) : (s.setGpio g).Alike (t.setGpio g) := by
  obtain ⟨l, hl, rfl⟩ := State.alike_iff.1 h; exact ⟨hl, rfl⟩

theorem State.Alike.sample (h : s.Alike t) (cfg : Bindings) (rest : List Input) :
    (s.sample cfg rest).Alike (t.sample cfg rest) := by
  obtain ⟨l, hl, rfl⟩ := State.alike_iff.1 h; exact ⟨hl, rfl⟩

theorem State.Alike.withInputs (h : s.Alike t) (rest : List Input) : (s.withInputs rest).Alike (t.withInputs rest) := by
  obtain ⟨l, hl, rfl⟩ := State.alike_iff.1 h; exact ⟨hl, rfl⟩

theorem State.Alike.resetBlock (h : s.Alike t) : s.resetBlock.Alike t.resetBlock := by
  obtain ⟨l, hl, rfl⟩ := State.alike_iff.1 h
  refine State.alike_iff.2 ⟨List.replicate s.slots.length Slot.reset, ?_, ?_⟩
  · exact List.forall₂_same.2 fun a _ => Slot.Alike.refl a
  · simp only [State.resetBlock, hl.length_eq]

/-- Alike states have the same registers and the same surroundings. -/
theorem State.Alike.same (h : s.Alike t) : t.gpio = s.gpio ∧ s.SameSurroundings t := by
  obtain ⟨l, -, rfl⟩ := State.alike_iff.1 h; exact ⟨rfl, rfl, rfl, rfl, rfl⟩

theorem State.Alike.exists_slot (h : s.Alike t) {j : Nat} {a : Slot} (ha : s.slots[j]? = some a) :
    ∃ b, t.slots[j]? = some b ∧ a.Alike b := by
  obtain ⟨hnone, -⟩ | ⟨a', b, ha', hb, hab⟩ := forall₂_getElem? h.1 j
  · cases hnone.symm.trans ha
  · cases ha'.symm.trans ha
    exact ⟨b, hb, hab⟩

theorem State.Alike.no_slot (h : s.Alike t) {j : Nat} (hs : s.slots[j]? = none) : t.slots[j]? = none := by
  obtain ⟨-, ht⟩ | ⟨a, b, ha, -, -⟩ := forall₂_getElem? h.1 j
  · exact ht
  · cases ha.symm.trans hs

/-- A handle names the same Active slot in both states. -/
theorem State.Alike.holds (h : s.Alike t) {j : Nat} {a : Slot} (ha : s.Holds j a) : t.Holds j a := by
  obtain ⟨hs, hact⟩ := ha
  obtain ⟨b, hb, -, heq⟩ := h.exists_slot hs
  rw [← heq hact] at hb
  exact ⟨hb, hact⟩

theorem State.Alike.invalid (h : s.Alike t) {j : Nat} (hv : s.Invalid j) : t.Invalid j := by
  intro b hb
  obtain ⟨-, hnone⟩ | ⟨a, b', ha, hb', hstatus, -⟩ := forall₂_getElem? h.1 j
  · cases hnone.symm.trans hb
  · cases hb'.symm.trans hb
    rw [← hstatus]
    exact hv a ha

theorem State.Alike.full (h : s.Alike t) (hs : ∀ sl ∈ s.slots, sl.status = .active) :
    ∀ sl ∈ t.slots, sl.status = .active := by
  rw [← leastInactive_eq_none_iff] at hs ⊢
  rw [leastInactive_eq_of_alike h.1, hs]

theorem State.Alike.allocates (h : s.Alike t) {i : Nat} (hi : s.Allocates i) : t.Allocates i := by
  have hscan := (leastInactive_eq_some_iff _ _).2 hi
  exact (leastInactive_eq_some_iff _ _).1 ((leastInactive_eq_of_alike h.1).trans hscan)

theorem State.Alike.afterMotor (h : s.Alike t) (i : Instr) (j : Nat) (sl : Slot) :
    (s.afterMotor i j sl).Alike (t.afterMotor i j sl) := by
  obtain ⟨hgpio, hpos, -⟩ := h.same
  simp only [State.afterMotor, hgpio, hpos]
  exact ((h.setSlot j (.refl _)).setGpio _).respond _ _

theorem State.Alike.afterConstruct (h : s.Alike t) (speed : Byte) (j : Nat) :
    (s.afterConstruct speed j).Alike (t.afterConstruct speed j) := by
  obtain ⟨hgpio, -, -, hcfg, -⟩ := h.same
  simp only [State.afterConstruct, hgpio, hcfg]
  exact ((h.setSlot j (.refl _)).setGpio _).respond _ _

/-- A command does the same on alike states. -/
theorem State.Alike.exec (h : s.Alike t) {i : Instr} {s' : State} (he : exec i s = .next s') :
    ∃ t', Machine.exec i t = .next t' ∧ s'.Alike t' := by
  obtain ⟨speed, rfl, ⟨hfull, rfl⟩ | ⟨k, hk, hp, rfl⟩⟩ | ⟨j, rfl, ⟨a, hs, rfl⟩ | ⟨hs, rfl⟩⟩ |
    ⟨j, hi, ⟨sl, hh, rfl⟩ | ⟨hv, rfl⟩⟩ := exec_forms he
  · exact ⟨_, exec_construct_of_full (h.full hfull), h.respond _ _⟩
  · obtain ⟨-, -, hnotPlain, hcfg, -⟩ := h.same
    rw [← hnotPlain, ← hcfg] at hp
    exact ⟨_, exec_construct_of_allocates (h.allocates hk) hp, h.afterConstruct speed k⟩
  · obtain ⟨b, ht, -⟩ := h.exists_slot hs
    exact ⟨_, exec_destruct_of_some ht, (h.setSlot j (Slot.alike_of_inactive rfl rfl)).respond _ _⟩
  · exact ⟨_, exec_destruct_of_none (h.no_slot hs), h.respond _ _⟩
  · exact ⟨_, exec_of_holds hi (h.holds hh), h.afterMotor i j sl⟩
  · exact ⟨_, exec_motor_of_invalid hi (h.invalid hv), h.respond _ _⟩

end Alike

/-! #### Register files -/

/-- A command on another register file writes the same slots and answers the same (10_state.md R36). -/
theorem exec_setGpio {i : Instr} {s t : State} (he : exec i s = .next t) (g : Memory) :
    ∃ t', exec i (s.setGpio g) = .next t' ∧ t'.slots = t.slots ∧ t'.responses = t.responses := by
  obtain ⟨speed, rfl, ⟨hfull, rfl⟩ | ⟨k, hk, hp, rfl⟩⟩ | ⟨j, rfl, ⟨sl, hs, rfl⟩ | ⟨hs, rfl⟩⟩ |
    ⟨j, hi, ⟨sl, hh, rfl⟩ | ⟨hv, rfl⟩⟩ := exec_forms he
  · exact ⟨_, exec_construct_of_full (s := s.setGpio g) hfull, rfl, rfl⟩
  · refine ⟨(s.setGpio g).afterConstruct speed k, exec_construct_of_allocates (s := s.setGpio g) hk hp, ?_, ?_⟩
    · simp only [State.afterConstruct_slots, State.setGpio_slots, State.setGpio_cfgIn]
    · simp only [State.afterConstruct_responses, State.setGpio_responses]
  · exact ⟨_, exec_destruct_of_some (s := s.setGpio g) hs, rfl, rfl⟩
  · exact ⟨_, exec_destruct_of_none (s := s.setGpio g) hs, rfl, rfl⟩
  · exact ⟨_, exec_of_holds (s := s.setGpio g) hi hh, rfl, rfl⟩
  · exact ⟨_, exec_motor_of_invalid (s := s.setGpio g) hi hv, rfl, rfl⟩

end Sys2Proof.Machine

namespace Sys2Proof.Spec

open Sys2Proof.Machine

/-- Settles O46: by the step's cases; each update keeps two states alike, and each check answers alike on them. -/
theorem inactiveSlotFieldsAreUnobservable : Obligations.InactiveSlotFieldsAreUnobservable := by
  intro s t s' h hstep
  obtain ⟨hgpio, -, -, -, hin⟩ := h.same
  obtain ⟨hi, rfl⟩ | ⟨w, cfg, rest, i, hi, hd, he⟩ | ⟨w, cfg, rest, e, hi, hd, rfl⟩ | ⟨r, v, rest, hi, rfl⟩ |
    ⟨rest, hi, rfl⟩ := step_cases hstep
  · exact ⟨t, by simp only [step, hin, hi], h⟩
  · rw [step_of_legal (hin.trans hi) hd]
    exact (h.sample cfg rest).exec he
  · exact ⟨_, step_of_illegal (hin.trans hi) hd, (h.sample cfg rest).respond _ _⟩
  · refine ⟨_, step_of_external (hin.trans hi), ?_⟩
    simp only [State.externalWrite, State.withInputs_gpio, hgpio]
    exact (h.withInputs rest).setGpio _
  · exact ⟨_, step_of_reset (hin.trans hi), (h.withInputs rest).resetBlock⟩

/-- Settles O37: slot and answer of each command are given without the register file. -/
theorem responsesDoNotDependOnGpio : Obligations.ResponsesDoNotDependOnGpio :=
  fun _ _ _ g he => exec_setGpio he g

end Sys2Proof.Spec

/-! ### Inputs and the first command -/

namespace Sys2Proof.Machine

theorem decodeTableWord_eq_some {nbits w : Nat} {i : Instr} (h : decodeTableWord nbits w = some i) :
    decode (tableWord nbits w) = .ok i := by
  unfold decodeTableWord at h
  split at h
  · next hd => rw [hd, Option.some.inj h]
  · cases h

/-- After reset slot 0 is the lowest Inactive one (70_reset_and_hazards.md R190). -/
theorem State.allocates_zero_of_reset {p : Params} (hp : 1 ≤ p.slotCount) : (State.resetWith p).Allocates 0 :=
  ⟨⟨Slot.reset, List.getElem?_replicate_of_lt hp, rfl⟩, fun _ hj => absurd hj (Nat.not_lt_zero _)⟩

end Sys2Proof.Machine

namespace Sys2Proof.Spec

open Sys2Proof.Machine

/-- Settles O7: the placed word is sampled with the configuration and the inputs of the state it was placed in. -/
theorem fetchWordRunsNext : Obligations.FetchWordRunsNext :=
  fun s nbits w _ h => step_of_legal (s := s.withFetchWord nbits w) rfl (decodeTableWord_eq_some h)

/-- Settles O11: read after write (20_memory.md R51). -/
theorem externalWriteStoresItsValue : Obligations.ExternalWriteStoresItsValue := by
  intro s r v rest hg hi
  refine ⟨_, step_of_external hi, ?_, fun x hx => ?_, rfl, rfl, rfl, rfl, rfl, rfl⟩
  · exact (Memory.read_write r r v hg).trans (if_pos rfl)
  · exact (Memory.read_write r x v hg).trans (if_neg (Ne.symm hx))

/-- Settles O40: slot 0 is the lowest Inactive one after reset, and CONSTRUCT allocates it. -/
theorem firstConstructReturnsHandleZero : Obligations.FirstConstructReturnsHandleZero := by
  rintro p cfg speed ⟨hn, -, -⟩ hplain
  have ha : ({ State.resetWith p with cfgIn := cfg } : State).Allocates 0 := State.allocates_zero_of_reset hn
  refine ⟨_, exec_construct_of_allocates ha hplain, rfl, Slot.constructed cfg speed, ⟨?_, rfl⟩, rfl, rfl⟩
  exact List.getElem?_set_self ha.lt

end Sys2Proof.Spec

/-! ## Memory: the register file and the primitives (20_memory.md) -/

/-! ### The value a primitive writes -/

namespace Sys2Proof.Machine

theorem Memory.read_write_self {g : Memory} (r : Nat) (v : Byte) (h : g.wf = true) : (g.write r v).read r = v :=
  (Memory.read_write r r v h).trans (if_pos rfl)

theorem Memory.read_write_of_ne {g : Memory} {r x : Nat} (hx : x ≠ r) (v : Byte) (h : g.wf = true) :
    (g.write r v).read x = g.read x :=
  (Memory.read_write r x v h).trans (if_neg (Ne.symm hx))

section ZeroMask

variable {b : PinBinding} {g : Memory}

theorem pinSet_of_mask_zero (hm : b.mask = 0#8) (h : g.wf = true) : pinSet b g = g := by
  rw [pinSet, hm, BitVec.or_zero, Memory.write_read_self _ h]

theorem pinClear_of_mask_zero (hm : b.mask = 0#8) (h : g.wf = true) : pinClear b g = g := by
  rw [pinClear, hm, BitVec.not_zero, BitVec.and_allOnes, Memory.write_read_self _ h]

theorem pinWrite_of_mask_zero (hm : b.mask = 0#8) (v : Bool) (h : g.wf = true) : pinWrite b v g = g := by
  cases v
  · exact pinClear_of_mask_zero hm h
  · exact pinSet_of_mask_zero hm h

theorem ddrOutput_of_mask_zero (hm : b.mask = 0#8) (h : g.wf = true) : ddrOutput b g = g := by
  rw [ddrOutput, hm, BitVec.or_zero, Memory.write_read_self _ h]

end ZeroMask

/-! ### Bits outside the data-register areas of a command -/

open Sys2Proof.Spec

section NoPort

variable {g : Memory} {r : RegId} {k : Nat}

theorem bitOf_pinWrite_of_no_port {b : PinBinding} (hp : (portArea b).covers r k = false) (v : Bool)
    (hg : g.wf = true) : bitOf (pinWrite b v g) r k = bitOf g r k := by
  rw [bitOf_pinWrite b v r k hg, hp]; rfl

theorem bitOf_msWrite_of_no_port {c : Bindings} (hp : ∀ M ∈ msRoles, (portArea (c.get M)).covers r k = false)
    (m : MsLines) (hg : g.wf = true) : bitOf (msWrite c m g) r k = bitOf g r k := by
  have h1 : (portArea c.ms1).covers r k = false := hp .ms1 (by decide)
  have h2 : (portArea c.ms2).covers r k = false := hp .ms2 (by decide)
  have h3 : (portArea c.ms3).covers r k = false := hp .ms3 (by decide)
  rw [bitOf_msWrite c m r k hg, h1, h2, h3]; rfl

/-- A motor command leaves every bit outside the data-register areas it writes (41_motor_control.md R130). -/
theorem bitOf_motorGpio_of_no_port {i : Instr} {h : Nat} (hi : i.checkedHandle? = some h) {s : State} {sl : Slot}
    (hs : s.slots[h]? = some sl) (hp : ∀ a ∈ portAreasWritten s i, a.covers r k = false) (hg : g.wf = true) :
    bitOf (motorGpio i sl g) r k = bitOf g r k := by
  cases i with
  | setstep j z =>
    cases hi
    simp only [portAreasWritten, hs] at hp
    refine bitOf_msWrite_of_no_port (fun M hM => hp _ ?_) _ hg
    exact List.mem_map_of_mem (f := fun M => portArea (sl.bind.get M)) hM
  | setdir j d =>
    cases hi
    simp only [portAreasWritten, hs] at hp
    exact bitOf_pinWrite_of_no_port (hp _ (List.mem_singleton.2 rfl)) _ hg
  | step j =>
    cases hi
    simp only [portAreasWritten, hs] at hp
    exact bitOf_pinWrite_of_no_port (hp _ (List.mem_singleton.2 rfl)) true hg
  | _ => rfl

/-- Outside the data-register areas it writes, a command leaves a bit or sets it in a data-direction area it writes
(20_memory.md R55; 41_motor_control.md R130). -/
theorem exec_bit_of_no_port {i : Instr} {s t : State} (hg : s.gpio.wf = true) (he : exec i s = .next t)
    (hp : ∀ a ∈ portAreasWritten s i, a.covers r k = false) :
    bitOf t.gpio r k = bitOf s.gpio r k ∨
      bitOf t.gpio r k = true ∧ ∃ a ∈ ddrAreasWritten s i, a.covers r k = true := by
  obtain ⟨speed, rfl, ⟨-, rfl⟩ | ⟨j, -, -, rfl⟩⟩ | ⟨j, -, ⟨sl, -, rfl⟩ | ⟨-, rfl⟩⟩ |
    ⟨j, hi, ⟨sl, hh, rfl⟩ | ⟨-, rfl⟩⟩ := exec_forms he
  · exact .inl rfl
  · have hbit : bitOf (initLines s.cfgIn s.gpio) r k =
        (bitOf s.gpio r k || roleOrder.any fun M => (ddrArea (s.cfgIn.get M)).covers r k) :=
      bitOf_initRoles_of_no_port (fun M hM => hp _ (List.mem_map_of_mem hM)) hg
    rw [State.afterConstruct_gpio, hbit]
    cases hd : roleOrder.any fun M => (ddrArea (s.cfgIn.get M)).covers r k with
    | false => exact .inl (Bool.or_false _)
    | true =>
      obtain ⟨M, hM, hc⟩ := List.any_eq_true.1 hd
      exact .inr ⟨Bool.or_true _, _, List.mem_map_of_mem hM, hc⟩
  · exact .inl rfl
  · exact .inl rfl
  · exact .inl (bitOf_motorGpio_of_no_port hi hh.1 hp hg)
  · exact .inl rfl

end NoPort

/-! ### A configuration that names a register which is not plain storage (20_memory.md R51) -/

theorem bindingsPlain_eq_false {notPlain : List RegId} {c : Bindings} {L : LineRole}
    (h : (c.get L).port ∈ notPlain ∨ (c.get L).ddr ∈ notPlain) : bindingsPlain notPlain c = false := by
  refine List.all_eq_false.2 ⟨L, mem_roleOrder L, ?_⟩
  obtain hport | hddr := h
  · simp [hport]
  · simp [hddr]

/-- CONSTRUCT with an Inactive slot left and an unplain configuration (20_memory.md R51; entry 9). -/
theorem exec_construct_of_unplain {speed : Byte} {s : State} (hs : ∃ sl ∈ s.slots, sl.status = .inactive)
    (hp : bindingsPlain s.notPlain s.cfgIn = false) : exec (.construct speed) s = .refused .bindingNotPlain := by
  cases hl : leastInactive s.slots with
  | none =>
    obtain ⟨sl, hm, hinactive⟩ := hs
    cases hinactive.symm.trans ((leastInactive_eq_none_iff _).1 hl sl hm)
  | some i => simp only [exec, execConstruct, hl, hp, Bool.false_eq_true, if_false]

end Sys2Proof.Machine

namespace Sys2Proof.Spec

open Sys2Proof.Machine

/-- Settles O35: a bit in no data-register area the command writes stays as it was or is set, so a cleared bit is in
one. -/
theorem onlyDataRegisterBitsAreCleared : Obligations.OnlyDataRegisterBitsAreCleared := by
  intro i s t r k hg he hone hzero
  by_contra hno
  have hp : ∀ a ∈ portAreasWritten s i, a.covers r k = false := fun a ha =>
    Bool.eq_false_iff.2 fun hc => hno ⟨a, ha, hc⟩
  obtain hsame | ⟨hset, -⟩ := exec_bit_of_no_port hg he hp
  · exact absurd (hzero.symm.trans (hsame.trans hone)) (by decide)
  · exact absurd (hzero.symm.trans hset) (by decide)

/-- Settles O6: the step on a legal word. -/
theorem stepRunsDecodedCommand : Obligations.StepRunsDecodedCommand :=
  fun _ _ _ _ _ hs hw => step_of_legal hs hw

/-- Settles O15: read after write (20_memory.md R51). -/
theorem pinPrimitivesWriteTheirFormula : Obligations.PinPrimitivesWriteTheirFormula :=
  fun _ _ hg => ⟨Memory.read_write_self _ _ hg, Memory.read_write_self _ _ hg,
    fun _ hr => ⟨Memory.read_write_of_ne hr _ hg, Memory.read_write_of_ne hr _ hg⟩, rfl, rfl⟩

/-- Settles O16: read after write (20_memory.md R51). -/
theorem ddrOutputSetsItsMask : Obligations.DdrOutputSetsItsMask :=
  fun _ _ hg => ⟨Memory.read_write_self _ _ hg, fun _ hr => Memory.read_write_of_ne hr _ hg⟩

/-- Settles O17: each primitive writes back what it has read. -/
theorem zeroMaskLeavesGpioUnchanged : Obligations.ZeroMaskLeavesGpioUnchanged :=
  fun _ _ v hg hm => ⟨pinSet_of_mask_zero hm hg, pinClear_of_mask_zero hm hg, pinWrite_of_mask_zero hm v hg,
    ddrOutput_of_mask_zero hm hg⟩

/-- Settles O19: the scan finds a slot, and the named register fails the plain check. -/
theorem unplainConfigurationIsRefused : Obligations.UnplainConfigurationIsRefused :=
  fun _ _ _ hs hL => exec_construct_of_unplain hs (bindingsPlain_eq_false hL)

end Sys2Proof.Spec

/-! ## Encoding: the words of the commands and their responses (30_encoding.md) -/

/-! ### The operand byte under the decoder's tests and the masks of the opcode table -/

namespace Sys2Proof

/-- The bits of a byte from `n` upwards, as the opcode table masks them. -/
theorem byte_and_high_eq_zero_iff (b : Byte) (n : Nat) :
    b &&& (BitVec.allOnes 8 <<< n) = 0#8 ↔ b.toNat < 2 ^ n := by
  rw [← BitVec.shiftLeft_ushiftRight, BitVec.toNat_eq, BitVec.toNat_shiftLeft, BitVec.toNat_ushiftRight,
    Nat.shiftLeft_eq, Nat.shiftRight_eq_div_pow, Nat.mod_eq_of_lt ((Nat.div_mul_le_self _ _).trans_lt b.isLt)]
  simp [Nat.div_eq_zero_iff]

/-- The bits of a byte from `n` upwards, as the decoder takes them out. -/
theorem byte_extract_high_eq_zero_iff (b : Byte) {n : Nat} (hn : n ≤ 8) :
    b.extractLsb' n (8 - n) = 0#(8 - n) ↔ b.toNat < 2 ^ n := by
  have hlt : b.toNat / 2 ^ n < 2 ^ (8 - n) := by
    rw [Nat.div_lt_iff_lt_mul (Nat.two_pow_pos n), ← Nat.pow_add, Nat.sub_add_cancel hn]
    exact b.isLt
  rw [BitVec.toNat_eq, BitVec.extractLsb'_toNat, Nat.shiftRight_eq_div_pow, Nat.mod_eq_of_lt hlt]
  simp [Nat.div_eq_zero_iff]

/-- A byte that holds a code in its low `n` bits and 0 above them. -/
theorem byte_eq_ofNat_iff (b : Byte) {n c : Nat} (hn : 2 ^ n ≤ 256) (hc : c < 2 ^ n) :
    b = BitVec.ofNat 8 c ↔ b.toNat < 2 ^ n ∧ b.toNat % 2 ^ n = c := by
  have hcode : (BitVec.ofNat 8 c).toNat = c := Nat.mod_eq_of_lt (hc.trans_le hn)
  rw [BitVec.toNat_eq, hcode]
  constructor
  · rintro rfl; exact ⟨hc, Nat.mod_eq_of_lt hc⟩
  · rintro ⟨hlt, rfl⟩; exact (Nat.mod_eq_of_lt hlt).symm

theorem StepSize.code_lt (z : StepSize) : z.code < 2 ^ 3 := by cases z <;> decide

theorem Direction.code_lt (d : Direction) : d.code < 2 ^ 1 := by cases d <;> decide

/-- The step sizes in the order of their codes (30_encoding.md R88). -/
theorem StepSize.getElem?_eq_some_iff (n : Nat) (z : StepSize) :
    [StepSize.full, .half, .quarter, .eighth, .sixteenth][n]? = some z ↔ n = z.code := by
  obtain _ | _ | _ | _ | _ | n := n <;> cases z <;> simp [StepSize.code]

/-- The directions in the order of their codes (30_encoding.md R90). -/
theorem Direction.getElem?_eq_some_iff (n : Nat) (d : Direction) :
    [Direction.forward, .backward][n]? = some d ↔ n = d.code := by
  obtain _ | _ | n := n <;> cases d <;> simp [Direction.code]

theorem Direction.ofBit_eq_iff (b : Bool) (d : Direction) : Direction.ofBit b = d ↔ b.toNat = d.code := by
  cases b <;> cases d <;> decide

/-! ### What each of the decoder's rows accepts -/

theorem decodeBare_eq_ok_iff {b : Byte} {c i : Instr} : decodeBare b c = .ok i ↔ b = 0#8 ∧ c = i := by
  unfold decodeBare
  split <;> simp [*]

theorem decodeConstruct_eq_ok_iff {h : BitVec 4} {b : Byte} {i : Instr} :
    decodeConstruct h b = .ok i ↔ h = 0#4 ∧ .construct b = i := by
  unfold decodeConstruct
  split <;> simp [*]

/-- The operand of a SETSTEP (30_encoding.md R87, R88). -/
theorem eq_stepCode_iff (b : Byte) (z : StepSize) :
    b = BitVec.ofNat 8 z.code ↔
      b.extractLsb' 3 5 = 0#5 ∧ StepSize.ofCode (b.extractLsb' 0 3).toNat = some z := by
  have hlow : (b.extractLsb' 0 3).toNat = b.toNat % 2 ^ 3 := BitVec.extractLsb'_toNat 0 3 b
  rw [byte_eq_ofNat_iff b (by decide) z.code_lt, ← byte_extract_high_eq_zero_iff b (by decide),
    StepSize.ofCode_eq_some_iff, hlow]

/-- The operand of a SETDIR (30_encoding.md R89, R90). -/
theorem eq_dirCode_iff (b : Byte) (d : Direction) :
    b = BitVec.ofNat 8 d.code ↔ b.extractLsb' 1 7 = 0#7 ∧ Direction.ofBit (b.getLsbD 0) = d := by
  have hlow : (b.getLsbD 0).toNat = b.toNat % 2 ^ 1 := by rw [BitVec.getLsbD, Nat.toNat_testBit]; simp
  rw [byte_eq_ofNat_iff b (by decide) d.code_lt, ← byte_extract_high_eq_zero_iff b (by decide),
    Direction.ofBit_eq_iff, hlow]

theorem decodeSetstep_eq_ok_iff {h : Nat} {b : Byte} {i : Instr} :
    decodeSetstep h b = .ok i ↔ ∃ z : StepSize, b = BitVec.ofNat 8 z.code ∧ .setstep h z = i := by
  simp only [eq_stepCode_iff]
  unfold decodeSetstep
  generalize StepSize.ofCode (b.extractLsb' 0 3).toNat = size
  split
  · cases size <;> simp [*]
  · simp [*]

theorem decodeSetdir_eq_ok_iff {h : Nat} {b : Byte} {i : Instr} :
    decodeSetdir h b = .ok i ↔ ∃ d : Direction, b = BitVec.ofNat 8 d.code ∧ .setdir h d = i := by
  simp only [eq_dirCode_iff]
  unfold decodeSetdir
  split <;> simp [*]

/-! ### The word of a command, by its three fields -/

/-- The three fields of `w` are those of the command `i` (30_encoding.md R80, R83). -/
def Spells (w : Word) (i : Instr) : Prop :=
  opField w = i.opcode ∧ (handleField w).toNat = i.handle?.getD 0 ∧ imm8Field w = i.operand

theorem Instr.wellFormed_iff (i : Instr) : i.wellFormed = true ↔ i.handle?.getD 0 < 16 := by
  unfold Instr.wellFormed
  split <;> simp [*]

/-- The encoder writes the word that spells the command. -/
theorem spells_iff (w : Word) (i : Instr) : Spells w i ↔ i.wellFormed = true ∧ encode i = w := by
  rw [Instr.wellFormed_iff, encode]
  constructor
  · rintro ⟨hop, hh, hb⟩
    rw [← hop, ← hh, ← hb, BitVec.ofNat_toNat, BitVec.setWidth_eq]
    exact ⟨(handleField w).isLt, commandWord_fields w⟩
  · rintro ⟨hlt, rfl⟩
    exact ⟨opField_commandWord _ _ _, by rw [handleField_commandWord, BitVec.toNat_ofNat, Nat.mod_eq_of_lt hlt],
      imm8Field_commandWord _ _ _⟩

theorem spells_of_decodeBare {w : Word} {c i : Instr} (hd : decodeBare (imm8Field w) c = .ok i)
    (hop : (opField w).toNat = c.opcode.toNat) (hh : c.handle? = some (handleField w).toNat) (hb : c.operand = 0#8) :
    Spells w i := by
  obtain ⟨hz, rfl⟩ := decodeBare_eq_ok_iff.1 hd
  exact ⟨BitVec.eq_of_toNat_eq hop, by rw [hh, Option.getD_some], hz.trans hb.symm⟩

/-- The decoder reads only the command that the word spells. -/
theorem spells_of_decode {w : Word} {i : Instr} (hd : decode w = .ok i) : Spells w i := by
  unfold decode decodeFields at hd
  split at hd
  · next hop =>
    obtain ⟨hz, rfl⟩ := decodeConstruct_eq_ok_iff.1 hd
    exact ⟨BitVec.eq_of_toNat_eq hop, congrArg BitVec.toNat hz, rfl⟩
  · next hop => exact spells_of_decodeBare hd hop rfl rfl
  · next hop => cases hd; exact ⟨BitVec.eq_of_toNat_eq hop, rfl, rfl⟩
  · next hop => exact spells_of_decodeBare hd hop rfl rfl
  · next hop =>
    obtain ⟨z, hz, rfl⟩ := decodeSetstep_eq_ok_iff.1 hd
    exact ⟨BitVec.eq_of_toNat_eq hop, rfl, hz⟩
  · next hop => exact spells_of_decodeBare hd hop rfl rfl
  · next hop => cases hd; exact ⟨BitVec.eq_of_toNat_eq hop, rfl, rfl⟩
  · next hop => exact spells_of_decodeBare hd hop rfl rfl
  · next hop =>
    obtain ⟨d, hz, rfl⟩ := decodeSetdir_eq_ok_iff.1 hd
    exact ⟨BitVec.eq_of_toNat_eq hop, rfl, hz⟩
  · next hop => exact spells_of_decodeBare hd hop rfl rfl
  · next hop => exact spells_of_decodeBare hd hop rfl rfl
  · cases hd

/-- The decoder reads every command that a word spells. -/
theorem decode_of_spells {w : Word} {i : Instr} (hs : Spells w i) : decode w = .ok i := by
  obtain ⟨hop, hh, hb⟩ := hs
  rw [decode, hop, hb]
  cases i with
  | construct v => exact decodeConstruct_eq_ok_iff.2 ⟨BitVec.eq_of_toNat_eq hh, rfl⟩
  | setspeed h v | setpos h v => cases hh; rfl
  | setstep h z => cases hh; exact decodeSetstep_eq_ok_iff.2 ⟨z, rfl, rfl⟩
  | setdir h d => cases hh; exact decodeSetdir_eq_ok_iff.2 ⟨d, rfl, rfl⟩
  | destruct h | getspeed h | getstep h | getpos h | getdir h | step h =>
    cases hh; exact decodeBare_eq_ok_iff.2 ⟨rfl, rfl⟩

/-! ### The rows of the opcode map -/

/-- The opcode and the zero bits of a row, the handle bits `mh` and the operand bits `mb` of its mask being set. -/
theorem and_rowMask_eq_iff (w : Word) (op mh : BitVec 4) (mb : Byte) :
    w &&& commandWord 0xF#4 mh mb = commandWord op 0#4 0#8 ↔
      opField w = op ∧ handleField w &&& mh = 0#4 ∧ imm8Field w &&& mb = 0#8 := by
  conv_lhs => rw [← commandWord_fields w, commandWord_and, commandWord_inj]

theorem toNat_handleField_eq_iff (w : Word) (h : Nat) : h = w.toNat / 256 % 16 ↔ (handleField w).toNat = h := by
  obtain ⟨-, hh, -⟩ := fields_toNat w
  rw [hh, eq_comm]

theorem imm8Field_eq_iff (w : Word) (v : Byte) : v.toNat = w.toNat % 256 ↔ imm8Field w = v := by
  obtain ⟨-, -, hb⟩ := fields_toNat w
  rw [← hb, BitVec.toNat_eq, eq_comm]

/-- The low bits of a word are those of its operand byte. -/
theorem toNat_mod_eq_imm8Field_mod (w : Word) {n : Nat} (hn : n ∣ 256) : w.toNat % n = (imm8Field w).toNat % n := by
  obtain ⟨-, -, hb⟩ := fields_toNat w
  rw [hb, Nat.mod_mod_of_dvd _ hn]

/-- CONSTRUCT's row, whose handle must be 0 and whose operand byte is free. -/
theorem constructRow_iff (w : Word) (op : BitVec 4) (v : Byte) :
    w &&& commandWord 0xF#4 0xF#4 0#8 = commandWord op 0#4 0#8 ∧ v.toNat = w.toNat % 256 ↔
      opField w = op ∧ (handleField w).toNat = 0 ∧ imm8Field w = v := by
  have hh : handleField w &&& 0xF#4 = handleField w := BitVec.and_allOnes
  rw [and_rowMask_eq_iff, hh, BitVec.and_zero, imm8Field_eq_iff, BitVec.toNat_eq (y := 0#4)]
  tauto

/-- The rows whose operand byte must be 0. -/
theorem bareRow_iff (w : Word) (op : BitVec 4) (h : Nat) :
    w &&& commandWord 0xF#4 0#4 0xFF#8 = commandWord op 0#4 0#8 ∧ h = w.toNat / 256 % 16 ↔
      opField w = op ∧ (handleField w).toNat = h ∧ imm8Field w = 0#8 := by
  have hb : imm8Field w &&& 0xFF#8 = imm8Field w := BitVec.and_allOnes
  rw [and_rowMask_eq_iff, hb, BitVec.and_zero, toNat_handleField_eq_iff]
  tauto

/-- The rows whose operand byte is free. -/
theorem byteRow_iff (w : Word) (op : BitVec 4) (h : Nat) (v : Byte) :
    w &&& commandWord 0xF#4 0#4 0#8 = commandWord op 0#4 0#8 ∧ h = w.toNat / 256 % 16 ∧ v.toNat = w.toNat % 256 ↔
      opField w = op ∧ (handleField w).toNat = h ∧ imm8Field w = v := by
  rw [and_rowMask_eq_iff, BitVec.and_zero, BitVec.and_zero, toNat_handleField_eq_iff, imm8Field_eq_iff]
  tauto

/-- The rows whose operand byte is a code `c` in its low `n` bits. -/
theorem codeRow_iff (w : Word) (op : BitVec 4) (h : Nat) {n c : Nat} (hn : 2 ^ n ∣ 256) (hc : c < 2 ^ n) :
    w &&& commandWord 0xF#4 0#4 (BitVec.allOnes 8 <<< n) = commandWord op 0#4 0#8 ∧ h = w.toNat / 256 % 16 ∧
        w.toNat % 2 ^ n = c ↔
      opField w = op ∧ (handleField w).toNat = h ∧ imm8Field w = BitVec.ofNat 8 c := by
  rw [and_rowMask_eq_iff, toNat_handleField_eq_iff, BitVec.and_zero, byte_and_high_eq_zero_iff,
    toNat_mod_eq_imm8Field_mod w hn, byte_eq_ofNat_iff _ (Nat.le_of_dvd (by decide) hn) hc]
  tauto

namespace Spec

/-- A word lies in the row of the command that it spells (30_encoding.md R83). -/
theorem rowOf_iff (w : Word) (i : Instr) : RowOf w i ↔ Spells w i := by
  cases i with
  | construct v => exact constructRow_iff w 0x1#4 v
  | destruct h => exact bareRow_iff w 0x2#4 h
  | setspeed h v => exact byteRow_iff w 0x3#4 h v
  | getspeed h => exact bareRow_iff w 0x4#4 h
  | setstep h z =>
    simp only [RowOf, StepSize.getElem?_eq_some_iff]
    exact codeRow_iff w 0x5#4 h (n := 3) (by decide) z.code_lt
  | getstep h => exact bareRow_iff w 0x6#4 h
  | setpos h v => exact byteRow_iff w 0x7#4 h v
  | getpos h => exact bareRow_iff w 0x8#4 h
  | setdir h d =>
    simp only [RowOf, Direction.getElem?_eq_some_iff]
    exact codeRow_iff w 0x9#4 h (n := 1) (by decide) d.code_lt
  | getdir h => exact bareRow_iff w 0xA#4 h
  | step h => exact bareRow_iff w 0xB#4 h

/-- Settles O3: the encoder's word spells the command, and the decoder reads what a word spells. -/
theorem decodeOfEncode : Obligations.DecodeOfEncode :=
  fun i hi => decode_of_spells ((spells_iff (encode i) i).2 ⟨hi, rfl⟩)

/-- Settles O4: the decoder reads only what the word spells, and one word spells a command. -/
theorem encodeOfDecode : Obligations.EncodeOfDecode :=
  fun w i hd => (spells_iff w i).1 (spells_of_decode hd)

/-- Settles O2: a word spells the command it decodes to and the command in whose row it lies. -/
theorem decodeIsTheOpcodeMap : Obligations.DecodeIsTheOpcodeMap :=
  fun w i => ⟨fun hd => (rowOf_iff w i).2 (spells_of_decode hd), fun hr => decode_of_spells ((rowOf_iff w i).1 hr)⟩

/-- Settles O1: the decoder run on each word. -/
theorem specVectorWordsDecode : Obligations.SpecVectorWordsDecode :=
  ⟨rfl, rfl, rfl, rfl, rfl, rfl, rfl, rfl, rfl, rfl, rfl, rfl, rfl, rfl, rfl, rfl, rfl⟩

end Spec

end Sys2Proof

/-! ### The encoder's tables (30_encoding.md R91 to R93) -/

namespace Sys2Proof.Machine

theorem encMs_inj {a b : StepSize} (h : encMs a = encMs b) : a = b := by
  cases a <;> cases b <;> cases h <;> rfl

/-- MS3 is high only together with MS1 and MS2 (30_encoding.md R92). -/
theorem encMs_ms3 {a : StepSize} (h : (encMs a).ms3 = true) : (encMs a).ms1 = true ∧ (encMs a).ms2 = true := by
  cases a with
  | sixteenth => exact ⟨rfl, rfl⟩
  | full | half | quarter | eighth => cases h

end Sys2Proof.Machine

/-! ### The response of a command (30_encoding.md R81, R82) -/

namespace Sys2Proof.Machine

open Sys2Proof.Spec

theorem ResultCode.code_eq_zero_iff (c : ResultCode) : c.code.toNat = 0 ↔ c = .ok := by cases c <;> decide

theorem toNat_zext8 {n : Nat} (hn : n < 256) : (zext8 n).toNat = n := Nat.mod_eq_of_lt hn

theorem toNat_zext8_stepCode (z : StepSize) : (zext8 z.code).toNat = z.code :=
  toNat_zext8 (z.code_lt.trans (by decide))

theorem toNat_zext8_dirCode (d : Direction) : (zext8 d.code).toNat = d.code :=
  toNat_zext8 (d.code_lt.trans (by decide))

section Motor

variable {i : Instr} {h : Nat} {s : State} {sl : Slot}

/-- An invalid handle is answered HandleInvalid (41_motor_control.md R120). -/
theorem statusIs_of_invalid (hi : i.checkedHandle? = some h) (hv : s.Invalid h) :
    StatusIs s i ResultCode.handleInvalid.code.toNat := by
  cases i with
  | construct | destruct => cases hi
  | _ => cases hi; exact .inl ⟨hv, rfl⟩

/-- The status of a motor command on a valid handle. -/
theorem statusIs_motorAnswer (hi : i.checkedHandle? = some h) (hh : s.Holds h sl) :
    StatusIs s i (motorAnswer i s.posMax sl).1.code.toNat := by
  cases i with
  | construct | destruct => cases hi
  | setpos j v =>
    cases hi
    refine .inr ⟨⟨sl, hh⟩, ?_⟩
    simp only [motorAnswer]
    split
    · next hv => exact .inl ⟨hv, rfl⟩
    · next hv => exact .inr ⟨Nat.le_of_not_lt hv, rfl⟩
  | _ => cases hi; exact .inr ⟨⟨sl, hh⟩, rfl⟩

/-- The data of a motor command that ends Ok. -/
theorem dataIs_motorAnswer (hi : i.checkedHandle? = some h) (hh : s.Holds h sl)
    (hok : (motorAnswer i s.posMax sl).1 = .ok) : DataIs s i (motorAnswer i s.posMax sl).2.toNat := by
  cases i with
  | construct | destruct => cases hi
  | getspeed | getpos => cases hi; exact ⟨sl, hh, rfl⟩
  | getstep j =>
    cases hi
    exact ⟨sl, hh, (StepSize.getElem?_eq_some_iff _ _).2 (toNat_zext8_stepCode _)⟩
  | getdir j =>
    cases hi
    exact ⟨sl, hh, (Direction.getElem?_eq_some_iff _ _).2 (toNat_zext8_dirCode _)⟩
  | setpos j v =>
    simp only [motorAnswer] at hok ⊢
    split at hok
    · cases hok
    · next hv => rw [if_neg hv]; rfl
  | setspeed | setstep | setdir | step => rfl

/-- A motor command that does not end Ok answers no data. -/
theorem motorAnswer_data_of_ne_ok {p : Byte} (hne : (motorAnswer i p sl).1 ≠ .ok) : (motorAnswer i p sl).2 = 0#8 := by
  cases i with
  | setpos j v =>
    simp only [motorAnswer]
    split <;> rfl
  | _ => exact absurd rfl hne

end Motor

/-- The response word of status `c` and data `d` is one that the rules of command `i` give in state `s`. -/
structure Answers (s : State) (i : Instr) (c : ResultCode) (d : Byte) : Prop where
  status : StatusIs s i c.code.toNat
  data   : c = .ok → DataIs s i d.toNat
  noData : c ≠ .ok → d = 0#8

/-- A command that answers a next state returns one response word, the one of its rules. -/
theorem exec_answers {i : Instr} {s t : State} (hn : s.slots.length ≤ 16) (he : exec i s = .next t) :
    ∃ c d, t.responses = s.responses ++ [responseWord c d] ∧ Answers s i c d := by
  obtain ⟨speed, rfl, ⟨hfull, rfl⟩ | ⟨k, hk, -, rfl⟩⟩ | ⟨j, rfl, ⟨sl, -, rfl⟩ | ⟨-, rfl⟩⟩ |
    ⟨j, hi, ⟨sl, hh, rfl⟩ | ⟨hv, rfl⟩⟩ := exec_forms he
  · exact ⟨.poolExhausted, 0#8, rfl, .inr ⟨hfull, rfl⟩, nofun, fun _ => rfl⟩
  · have hhandle : (zext8 k).toNat = k := toNat_zext8 (by have := hk.lt; omega)
    obtain ⟨sl, hsl, hinactive⟩ := hk.1
    have hleft : ∃ sl ∈ s.slots, sl.status = .inactive := ⟨sl, List.mem_of_getElem? hsl, hinactive⟩
    exact ⟨.ok, zext8 k, rfl, .inl ⟨hleft, rfl⟩, fun _ => hhandle.symm ▸ hk, fun hne => absurd rfl hne⟩
  · exact ⟨.ok, 0#8, rfl, rfl, fun _ => rfl, fun _ => rfl⟩
  · exact ⟨.ok, 0#8, rfl, rfl, fun _ => rfl, fun _ => rfl⟩
  · exact ⟨_, _, rfl, statusIs_motorAnswer hi hh, dataIs_motorAnswer hi hh, motorAnswer_data_of_ne_ok⟩
  · exact ⟨.handleInvalid, 0#8, rfl, statusIs_of_invalid hi hv, nofun, fun _ => rfl⟩

/-! ### The configuration input (30_encoding.md R95) -/

/-- A command other than CONSTRUCT does the same with another configuration at the input. -/
theorem exec_cfgIn {i : Instr} {s t : State} (hi : ∀ v, i ≠ .construct v) (he : exec i s = .next t) (c : Bindings) :
    exec i { s with cfgIn := c } = .next { t with cfgIn := c } := by
  obtain ⟨speed, rfl, -⟩ | ⟨j, rfl, ⟨sl, hs, rfl⟩ | ⟨hs, rfl⟩⟩ |
    ⟨j, hm, ⟨sl, hh, rfl⟩ | ⟨hv, rfl⟩⟩ := exec_forms he
  · exact absurd rfl (hi speed)
  · exact exec_destruct_of_some (s := { s with cfgIn := c }) hs
  · exact exec_destruct_of_none (s := { s with cfgIn := c }) hs
  · exact exec_of_holds (s := { s with cfgIn := c }) hm hh
  · exact exec_motor_of_invalid (s := { s with cfgIn := c }) hm hv

end Sys2Proof.Machine

namespace Sys2Proof.Spec

open Sys2Proof.Machine

/-- Settles O5: the tables row by row, and the two sentences of R92 about them. -/
theorem encoderTables : Obligations.EncoderTables :=
  ⟨fun z => (StepSize.getElem?_eq_some_iff _ z).2 rfl, rfl, rfl, rfl, rfl, rfl, fun _ _ => encMs_inj,
    fun _ => encMs_ms3, rfl, rfl⟩

/-- Settles O12: an illegal word is answered IllegalCommand, and a command as its rules say. -/
theorem everyCommandReturnsItsResponse : Obligations.EveryCommandReturnsItsResponse := by
  intro s t w cfg rest hn hi hstep
  cases hd : decode w with
  | error e =>
    rw [step_of_illegal hi hd] at hstep
    cases hstep
    exact ⟨0x0400#16, rfl, rfl, .inl ⟨⟨e, rfl⟩, rfl, rfl⟩⟩
  | ok i =>
    rw [step_of_legal hi hd] at hstep
    obtain ⟨c, d, hr, hstatus, hdata, hnone⟩ := exec_answers (s := s.sample cfg rest) hn hstep
    refine ⟨responseWord c d, hr, responseWord_top c d, .inr ⟨i, rfl, ?_⟩⟩
    rw [responseWord_status, responseWord_data, ne_eq, c.code_eq_zero_iff]
    exact ⟨hstatus, hdata, fun hne => by rw [hnone hne]; rfl⟩

/-- Settles O36: no branch of a command but CONSTRUCT's reads the configuration input. -/
theorem onlyConstructReadsTheConfiguration : Obligations.OnlyConstructReadsTheConfiguration :=
  fun _ _ _ c hi he => exec_cfgIn hi he c

end Sys2Proof.Spec

/-! ## Pool: CONSTRUCT, DESTRUCT and the life cycle of a slot (40_pool.md) -/

/-! ### Encodings, one written slot, and the response with a handle -/

namespace Sys2Proof.Spec

open Sys2Proof.Machine

/-- A row of the opcode map whose operand byte must be 0 (30_encoding.md R83, R84). -/
theorem bareEncoding_of_decodeFields {op : BitVec 4} {command : Nat → Instr}
    (hrow : ∀ h b, decodeFields op.toNat h b = decodeBare b (command h.toNat)) : BareEncoding op command := by
  intro h v
  have hd : decode (op ++ h ++ v) = decodeBare v (command h.toNat) := (decode_commandWord op h v).trans (hrow h v)
  exact ⟨fun hv => hd.trans (if_pos hv), fun hv => ⟨_, hd.trans (if_neg hv)⟩⟩

/-- Writing one slot of the pool leaves every other. -/
theorem onlySlot_of_set {s t : State} {i : Nat} {new : Slot} (hi : i < s.slots.length)
    (ht : t.slots = s.slots.set i new) : OnlySlot s t i new := by
  unfold OnlySlot
  rw [ht]
  exact ⟨List.length_set, List.getElem?_set_self hi, fun j hj => List.getElem?_set_ne (Ne.symm hj)⟩

end Sys2Proof.Spec

namespace Sys2Proof.Machine

/-- The response of a CONSTRUCT that allocates slot `i` (40_pool.md R112). -/
theorem responseWord_handle {i : Nat} (hi : i < 256) : responseWord .ok (zext8 i) = BitVec.ofNat 16 i := by
  apply BitVec.eq_of_toNat_eq
  rw [toNat_responseWord, toNat_zext8 hi, BitVec.toNat_ofNat, Nat.mod_eq_of_lt (by omega)]
  exact Nat.zero_add i

/-- A slot of a list in which one was written is the new one or one of the list. -/
theorem slot_of_set {l : List Slot} {h j : Nat} {new b : Slot} (hb : (l.set h new)[j]? = some b) :
    (h = j ∧ b = new) ∨ (h ≠ j ∧ l[j]? = some b) := by
  by_cases hj : h = j
  · subst hj
    obtain ⟨hlt, rfl⟩ := List.getElem?_eq_some_iff.1 hb
    exact .inl ⟨rfl, List.getElem_set_self hlt⟩
  · exact .inr ⟨hj, (List.getElem?_set_ne hj).symm.trans hb⟩

theorem status_eq_of_getElem? {l : List Slot} {j : Nat} {a b : Slot} (ha : l[j]? = some a) (hb : l[j]? = some b) :
    b.status = a.status := by
  rw [Option.some.inj (hb.symm.trans ha)]

/-! ### The lines after CONSTRUCT (40_pool.md R111) -/

section Lines

open Sys2Proof.Spec

variable {g : Memory} {c : Bindings}

/-- The initialisation sequence over a list of roles, as the area writes it makes. -/
theorem writtenBy_initRoles (Ls : List LineRole) (hg : g.wf = true) :
    WrittenBy g (initRoles c Ls g)
      (Ls.flatMap fun L => [(portArea (c.get L), false), (ddrArea (c.get L), true)]) := by
  intro r k
  induction Ls generalizing g with
  | nil => rfl
  | cons L Ls ih =>
    have hline : bitOf (initLine (c.get L) g) r k =
        afterWrites [(portArea (c.get L), false), (ddrArea (c.get L), true)] r k (bitOf g r k) :=
      bitOf_initLine _ r k hg
    rw [List.flatMap_cons, afterWrites, List.foldl_append]
    exact (ih (wf_initLine _ hg)).trans (by rw [hline]; rfl)

theorem writtenBy_initLines (hg : g.wf = true) : WrittenBy g (initLines c g) (constructWrites c) :=
  writtenBy_initRoles roleOrder hg

/-- A line driven low on every bit of its mask has its data-register bits 0 and its data-direction bits 1
(10_state.md R32). -/
theorem masked_of_driven_low {b : PinBinding} (h : ∀ k, b.mask.getLsbD k = true → level g b k = .drive false) :
    g.read b.port &&& b.mask = 0#8 ∧ g.read b.ddr &&& b.mask = b.mask := by
  have hbits : ∀ k, b.mask.getLsbD k = true → bitOf g b.ddr k = true ∧ bitOf g b.port k = false :=
    fun k hm => level_eq_drive_iff.1 (h k hm)
  refine ⟨(byte_and_eq_zero_iff _ _).2 fun k _ ⟨hport, hm⟩ => ?_, BitVec.eq_of_getLsbD_eq fun k _ => ?_⟩
  · exact absurd (hport.symm.trans (hbits k hm).2) (by decide)
  · rw [BitVec.getLsbD_and]
    cases hm : b.mask.getLsbD k with
    | false => exact Bool.and_false _
    | true => exact (Bool.and_true _).trans (hbits k hm).1

end Lines

/-! ### The status of a slot (40_pool.md R114) -/

/-- From slot `a` to slot `b`: an Inactive slot becomes Active exactly when `up`, an Active one Inactive exactly when
`down`. -/
def StatusMoves (up down : Prop) (a b : Slot) : Prop :=
  (a.status = .inactive → (b.status = .active ↔ up)) ∧ (a.status = .active → (b.status = .inactive ↔ down))

section Moves

variable {up down up' down' : Prop} {a b : Slot}

theorem StatusMoves.of_kept (h : b.status = a.status) (hup : ¬ up) (hdown : ¬ down) : StatusMoves up down a b := by
  constructor <;> intro ha <;> simp [h, ha, hup, hdown]

theorem StatusMoves.of_constructed (ha : a.status = .inactive) (hb : b.status = .active) (hup : up) :
    StatusMoves up down a b := by
  constructor <;> simp [ha, hb, hup]

theorem StatusMoves.of_destructed (hb : b.status = .inactive) (hup : ¬ up) (hdown : down) : StatusMoves up down a b := by
  constructor <;> simp [hb, hup, hdown]

theorem StatusMoves.congr (h : StatusMoves up down a b) (hup : up ↔ up') (hdown : down ↔ down') :
    StatusMoves up' down' a b := by
  rwa [← hup, ← hdown]

end Moves

/-- Which commands change a slot's status: CONSTRUCT that of the slot it allocates, DESTRUCT that of the slot it names
(40_pool.md R114). -/
theorem exec_statusMoves {i : Instr} {s t : State} {j : Nat} {a b : Slot} (he : exec i s = .next t)
    (ha : s.slots[j]? = some a) (hb : t.slots[j]? = some b) :
    StatusMoves ((∃ speed, i = .construct speed) ∧ s.Allocates j) (i = .destruct j) a b := by
  obtain ⟨speed, rfl, ⟨hfull, rfl⟩ | ⟨k, hk, -, rfl⟩⟩ | ⟨h, rfl, ⟨sl, hsl, rfl⟩ | ⟨hnone, rfl⟩⟩ |
    ⟨h, hi, hmotor⟩ := exec_forms he
  · refine .of_kept (status_eq_of_getElem? ha hb) (fun ⟨_, ⟨sl, hsl, hinactive⟩, _⟩ => ?_) nofun
    cases hinactive.symm.trans (hfull sl (List.mem_of_getElem? hsl))
  · obtain ⟨rfl, rfl⟩ | ⟨hkj, hold⟩ := slot_of_set hb
    · have ⟨⟨sl, hsl, hinactive⟩, _⟩ := hk
      cases hsl.symm.trans ha
      exact .of_constructed hinactive rfl ⟨⟨speed, rfl⟩, hk⟩
    · exact .of_kept (status_eq_of_getElem? ha hold) (fun ⟨_, hj⟩ => hkj (hk.unique hj)) nofun
  · obtain ⟨rfl, rfl⟩ | ⟨hhj, hold⟩ := slot_of_set hb
    · exact .of_destructed rfl (fun ⟨⟨_, e⟩, _⟩ => nomatch e) rfl
    · exact .of_kept (status_eq_of_getElem? ha hold) (fun ⟨⟨_, e⟩, _⟩ => nomatch e) fun e => hhj (Instr.destruct.inj e)
  · refine .of_kept (status_eq_of_getElem? ha hb) (fun ⟨⟨_, e⟩, _⟩ => nomatch e) fun e => ?_
    cases e
    cases hnone.symm.trans ha
  · refine .of_kept ?_ (fun ⟨⟨_, e⟩, _⟩ => by subst e; cases hi) fun e => by subst e; cases hi
    obtain ⟨sl, hh, rfl⟩ | ⟨-, rfl⟩ := hmotor
    · obtain ⟨rfl, rfl⟩ | ⟨-, hold⟩ := slot_of_set hb
      · rw [motorSlot_status, Option.some.inj (hh.1.symm.trans ha)]
      · exact status_eq_of_getElem? ha hold
    · exact status_eq_of_getElem? ha hb

end Sys2Proof.Machine

namespace Sys2Proof.Spec

open Sys2Proof.Machine

/-- Settles O18: the scan finds the slot, and the twelve accesses are area writes, line by line. -/
theorem constructAllocatesLowestInactiveSlot : Obligations.ConstructAllocatesLowestInactiveSlot := by
  refine ⟨fun h v => ?_, fun s speed i hn hg hi hp => ?_, fun s speed hfull => exec_construct_of_full hfull⟩
  · have hd : decode (0x1#4 ++ h ++ v) = decodeConstruct h v := decode_commandWord 0x1#4 h v
    exact ⟨fun hz => hd.trans (if_pos hz), fun hz => ⟨_, hd.trans (if_neg hz)⟩⟩
  · have hlt : i < 256 := by have := hi.lt; omega
    refine ⟨s.afterConstruct speed i, exec_construct_of_allocates hi hp, onlySlot_of_set hi.lt rfl, ?_, ?_,
      rfl, rfl, rfl, rfl⟩
    · rw [State.afterConstruct_gpio]
      exact writtenBy_initLines hg
    · rw [State.afterConstruct_responses, responseWord_handle hlt]

/-- Settles O20: the lines are driven low on every bit of their masks, and that gives the masked bytes. -/
theorem constructDrivesAllLinesLow : Obligations.ConstructDrivesAllLinesLow := by
  rintro s t speed hg hapart ⟨sl, hm, hinactive⟩ he L
  obtain ⟨hfull, -⟩ | ⟨i, hi, -⟩ := execConstruct_cases he
  · cases hinactive.symm.trans (hfull sl hm)
  · rw [eq_afterConstruct_of_allocates hi he, State.afterConstruct_gpio]
    have hlow : ∀ k, (s.cfgIn.get L).mask.getLsbD k = true →
        level (initLines s.cfgIn s.gpio) (s.cfgIn.get L) k = .drive false :=
      fun _ hk => level_initRoles hapart (mem_roleOrder L) hk hg
    obtain ⟨hport, hddr⟩ := masked_of_driven_low hlow
    exact ⟨hport, hddr, fun k _ => hlow k⟩

/-- Settles O21: DESTRUCT writes the status of a slot that exists, and otherwise only answers. -/
theorem destructMarksSlotInactive : Obligations.DestructMarksSlotInactive := by
  refine ⟨bareEncoding_of_decodeFields fun _ _ => rfl, fun s h sl hs => ?_, fun s h hh => ?_⟩
  · exact ⟨_, exec_destruct_of_some hs, onlySlot_of_set (List.getElem?_eq_some_iff.1 hs).1 rfl, rfl,
      rfl, rfl, rfl, rfl, rfl⟩
  · exact exec_destruct_of_none (List.getElem?_eq_none hh)

/-- Settles O22: by the step's cases; of the inputs only a command and a reset write a slot. -/
theorem statusFollowsTheLifeCycle : Obligations.StatusFollowsTheLifeCycle := by
  intro s t j a b hstep ha hb
  change StatusMoves _ _ a b
  obtain ⟨hi, rfl⟩ | ⟨w, cfg, rest, i, hi, hd, he⟩ | ⟨w, cfg, rest, e, hi, hd, rfl⟩ | ⟨r, v, rest, hi, rfl⟩ |
    ⟨rest, hi, rfl⟩ := step_cases hstep
  · exact .of_kept (status_eq_of_getElem? ha hb) (by simp [hi]) (by simp [hi])
  · have hsample : (s.sample cfg rest).Allocates j ↔ s.Allocates j := Iff.rfl
    exact (exec_statusMoves (s := s.sample cfg rest) he ha hb).congr (by simp [hi, hd, hsample]) (by simp [hi, hd])
  · exact .of_kept (status_eq_of_getElem? ha hb) (by simp [hi, hd]) (by simp [hi, hd])
  · exact .of_kept (status_eq_of_getElem? ha hb) (by simp [hi]) (by simp [hi])
  · have hreset : b = Slot.reset := List.eq_of_mem_replicate (List.mem_of_getElem? hb)
    exact .of_destructed (by rw [hreset]; rfl) (by simp [hi]) (by simp [hi])

end Sys2Proof.Spec

/-! ## Motor control: SETSPEED to STEP, and the frame of all commands (41_motor_control.md) -/

/-! ### The operand byte of SETSTEP and of SETDIR -/

namespace Sys2Proof

theorem StepSize.code_le (z : StepSize) : z.code ≤ 4 := by cases z <;> decide

theorem exists_error_of_forall_ne_ok {ε α : Type} {x : Except ε α} (h : ∀ a, x ≠ .ok a) : ∃ e, x = .error e := by
  cases x with
  | error e => exact ⟨e, rfl⟩
  | ok a => exact absurd rfl (h a)

/-- SETSTEP accepts no byte above the greatest step code (30_encoding.md R84, R87). -/
theorem decodeSetstep_error {h : Nat} {b : Byte} (hb : 4 < b.toNat) : ∃ e, decodeSetstep h b = .error e := by
  refine exists_error_of_forall_ne_ok fun i hd => ?_
  obtain ⟨z, rfl, -⟩ := decodeSetstep_eq_ok_iff.1 hd
  have hcode : (BitVec.ofNat 8 z.code).toNat ≤ z.code := Nat.mod_le _ _
  have := z.code_le
  omega

/-- SETDIR accepts no byte above the greatest direction code (30_encoding.md R84, R89). -/
theorem decodeSetdir_error {h : Nat} {b : Byte} (hb : 1 < b.toNat) : ∃ e, decodeSetdir h b = .error e := by
  refine exists_error_of_forall_ne_ok fun i hd => ?_
  obtain ⟨d, rfl, -⟩ := decodeSetdir_eq_ok_iff.1 hd
  have hcode : (BitVec.ofNat 8 d.code).toNat ≤ d.code := Nat.mod_le _ _
  have := d.code_lt
  omega

end Sys2Proof

/-! ### What a motor command answers -/

namespace Sys2Proof.Machine

open Sys2Proof.Spec

/-- The response word of a getter (30_encoding.md R81). -/
theorem State.respond_ok (s : State) (d : Byte) : s.respond .ok d = s.answered (d.setWidth 16) :=
  congrArg s.answered (responseWord_ok d)

/-- The response word of a code, such as a step code (30_encoding.md R81). -/
theorem State.respond_zext8 (s : State) {n : Nat} (hn : n < 256) :
    s.respond .ok (zext8 n) = s.answered (BitVec.ofNat 16 n) :=
  congrArg s.answered (responseWord_handle hn)

/-- A motor command on a valid handle ends Ok or PositionInvalid. -/
theorem motorAnswer_status (i : Instr) (p : Byte) (sl : Slot) :
    (motorAnswer i p sl).1 = .ok ∨ (motorAnswer i p sl).1 = .positionInvalid := by
  cases i with
  | setpos j v =>
    simp only [motorAnswer]
    split
    · exact .inr rfl
    · exact .inl rfl
  | _ => exact .inl rfl

theorem motorAnswer_code_ne_handleInvalid (i : Instr) (p : Byte) (sl : Slot) :
    (motorAnswer i p sl).1.code.toNat ≠ 2 := by
  obtain h | h := motorAnswer_status i p sl <;> rw [h] <;> decide

section Motor

variable {i : Instr} {h : Nat} {s : State} {sl : Slot}

/-- A motor command on an invalid handle only answers 0x0200 (41_motor_control.md R120). -/
theorem exec_answers_handleInvalid (hi : i.checkedHandle? = some h) (hv : s.Invalid h) :
    exec i s = .next (s.answered 0x0200#16) :=
  exec_motor_of_invalid hi hv

/-- A motor command that ends Ok and answers no data: the one slot and the registers (41_motor_control.md R121 to R129). -/
theorem completes_of_holds (hi : i.checkedHandle? = some h) (hh : s.Holds h sl)
    (hok : motorAnswer i s.posMax sl = (.ok, 0#8)) :
    Completes i s fun t =>
      OnlySlot s t h (motorSlot i s.posMax sl) ∧ t.gpio = motorGpio i sl s.gpio ∧ AnsweredBy s t 0x0000#16 := by
  refine ⟨_, exec_of_holds hi hh, onlySlot_of_set hh.lt rfl, rfl, ?_, rfl, rfl, rfl, rfl⟩
  rw [State.afterMotor, hok]
  rfl

end Motor

section Getters

variable {s : State} {h : Nat} {sl : Slot}

theorem exec_getspeed_of_holds (hh : s.Holds h sl) :
    exec (.getspeed h) s = .next (s.answered (sl.speed.setWidth 16)) :=
  (exec_motor_of_holds rfl hh).trans (congrArg _ (s.respond_ok sl.speed))

theorem exec_getpos_of_holds (hh : s.Holds h sl) :
    exec (.getpos h) s = .next (s.answered (sl.desiredPos.setWidth 16)) :=
  (exec_motor_of_holds rfl hh).trans (congrArg _ (s.respond_ok sl.desiredPos))

theorem exec_getstep_of_holds (hh : s.Holds h sl) :
    exec (.getstep h) s = .next (s.answered (BitVec.ofNat 16 sl.stepSize.code)) :=
  (exec_motor_of_holds rfl hh).trans
    (congrArg _ (s.respond_zext8 (sl.stepSize.code_lt.trans (by decide))))

theorem exec_getdir_of_holds (hh : s.Holds h sl) :
    exec (.getdir h) s = .next (s.answered (BitVec.ofNat 16 sl.dir.code)) :=
  (exec_motor_of_holds rfl hh).trans (congrArg _ (s.respond_zext8 (sl.dir.code_lt.trans (by decide))))

/-- What a getter answers for every slot just constructed, it answers right after the CONSTRUCT (40_pool.md R110). -/
theorem afterConstruct_of_holds {get : Nat → Instr} {w : Byte → Word}
    (hget : ∀ (t : State) (i : Nat) (c : Bindings) (speed : Byte), t.Holds i (Slot.constructed c speed) →
      exec (get i) t = .next (t.answered (w speed))) : AfterConstruct get w := by
  intro s t speed i hi he
  rw [eq_afterConstruct_of_allocates hi he]
  exact hget _ i s.cfgIn speed ⟨List.getElem?_set_self hi.lt, rfl⟩

end Getters

/-! ### The lines a motor command writes -/

section Lines

variable {g : Memory}

theorem writtenBy_pinWrite (b : PinBinding) (v : Bool) (hg : g.wf = true) :
    WrittenBy g (pinWrite b v g) [(portArea b, v)] :=
  fun r k => bitOf_pinWrite b v r k hg

theorem writtenBy_msWrite (c : Bindings) (m : MsLines) (hg : g.wf = true) :
    WrittenBy g (msWrite c m g) [(portArea c.ms1, m.ms1), (portArea c.ms2, m.ms2), (portArea c.ms3, m.ms3)] :=
  fun r k => bitOf_msWrite c m r k hg

end Lines

/-! ### The frame of all commands -/

/-- The access table of 10_state.md R37 for slot `j`, which is `a` before command `i` and `b` after it. -/
inductive SlotWrite (s : State) (j : Nat) (a : Slot) : Instr → Slot → Prop where
  | kept (i : Instr) : SlotWrite s j a i a
  | constructed (v : Byte) : s.Allocates j → SlotWrite s j a (.construct v) (Slot.constructed s.cfgIn v)
  | destructed : SlotWrite s j a (.destruct j) { a with status := .inactive }
  | speed (v : Byte) : SlotWrite s j a (.setspeed j v) { a with speed := v }
  | stepSize (z : StepSize) : SlotWrite s j a (.setstep j z) { a with stepSize := z }
  | position (v : Byte) : SlotWrite s j a (.setpos j v) { a with desiredPos := v }
  | direction (d : Direction) : SlotWrite s j a (.setdir j d) { a with dir := d }

section Frame

variable {i : Instr} {s t : State} {j : Nat} {a b : Slot}

theorem SlotWrite.of_kept (ha : s.slots[j]? = some a) (hb : s.slots[j]? = some b) : SlotWrite s j a i b := by
  cases ha.symm.trans hb
  exact .kept i

/-- A motor command writes at most its own field of the slot it names. -/
theorem slotWrite_motorSlot (hi : i.checkedHandle? = some j) (p : Byte) : SlotWrite s j a i (motorSlot i p a) := by
  cases i with
  | construct | destruct => cases hi
  | setspeed _ v => cases hi; exact .speed v
  | setstep _ z => cases hi; exact .stepSize z
  | setdir _ d => cases hi; exact .direction d
  | setpos _ v =>
    cases hi
    simp only [motorSlot]
    split
    · exact .kept _
    · exact .position v
  | getspeed | getstep | getpos | getdir | step => exact .kept _

/-- What a command can do to a slot (10_state.md R37). -/
theorem exec_slotWrite (he : exec i s = .next t) (ha : s.slots[j]? = some a) (hb : t.slots[j]? = some b) :
    SlotWrite s j a i b := by
  obtain ⟨v, rfl, ⟨-, rfl⟩ | ⟨k, hk, -, rfl⟩⟩ | ⟨h, rfl, ⟨sl, hsl, rfl⟩ | ⟨-, rfl⟩⟩ |
    ⟨h, hi, ⟨sl, hh, rfl⟩ | ⟨-, rfl⟩⟩ := exec_forms he
  · exact .of_kept ha hb
  · obtain ⟨rfl, rfl⟩ | ⟨-, hold⟩ := slot_of_set hb
    · exact .constructed v hk
    · exact .of_kept ha hold
  · obtain ⟨rfl, rfl⟩ | ⟨-, hold⟩ := slot_of_set hb
    · cases hsl.symm.trans ha
      exact .destructed
    · exact .of_kept ha hold
  · exact .of_kept ha hb
  · obtain ⟨rfl, rfl⟩ | ⟨-, hold⟩ := slot_of_set hb
    · cases hh.1.symm.trans ha
      exact slotWrite_motorSlot hi _
    · exact .of_kept ha hold
  · exact .of_kept ha hb

/-- A command changes nothing around the slots, the registers and the responses, and not the number of slots
(10_state.md R37, R38). -/
theorem exec_surroundings (he : exec i s = .next t) : s.SameSurroundings t ∧ t.slots.length = s.slots.length := by
  obtain ⟨v, -, ⟨-, rfl⟩ | ⟨k, -, -, rfl⟩⟩ | ⟨h, -, ⟨sl, -, rfl⟩ | ⟨-, rfl⟩⟩ |
    ⟨h, -, ⟨sl, -, rfl⟩ | ⟨-, rfl⟩⟩ := exec_forms he
  · exact ⟨⟨rfl, rfl, rfl, rfl⟩, rfl⟩
  · exact ⟨⟨rfl, rfl, rfl, rfl⟩, List.length_set⟩
  · exact ⟨⟨rfl, rfl, rfl, rfl⟩, List.length_set⟩
  · exact ⟨⟨rfl, rfl, rfl, rfl⟩, rfl⟩
  · exact ⟨⟨rfl, rfl, rfl, rfl⟩, List.length_set⟩
  · exact ⟨⟨rfl, rfl, rfl, rfl⟩, rfl⟩

/-- A command leaves every bit outside the areas it writes (20_memory.md R57; 41_motor_control.md R130). -/
theorem exec_bit_of_uncovered {r : RegId} {k : Nat} (hg : s.gpio.wf = true) (he : exec i s = .next t)
    (hc : ∀ a ∈ portAreasWritten s i ++ ddrAreasWritten s i, a.covers r k = false) :
    bitOf t.gpio r k = bitOf s.gpio r k := by
  obtain ⟨hport, hddr⟩ := List.forall_mem_append.1 hc
  obtain hsame | ⟨-, a, ha, hcov⟩ := exec_bit_of_no_port hg he hport
  · exact hsame
  · exact absurd (hcov.symm.trans (hddr a ha)) (by decide)

end Frame

end Sys2Proof.Machine

namespace Sys2Proof.Spec

open Sys2Proof.Machine

/-- Settles O14: the template answers an invalid handle, and no motor command answers a valid one with status 2. -/
theorem handleIsCheckedFirst : Obligations.HandleIsCheckedFirst := by
  intro i h s hi
  refine ⟨exec_answers_handleInvalid hi, fun sl hh => ⟨_, exec_of_holds hi hh, _, rfl, ?_⟩⟩
  rw [responseWord_status]
  exact motorAnswer_code_ne_handleInvalid i s.posMax sl

/-- Settles O26: the codes are the decoder's, and the three writes decide the bits one after the other. -/
theorem setstepWritesTheMicrostepLines : Obligations.SetstepWritesTheMicrostepLines := by
  refine ⟨fun h z c hc => ?_, fun h v hv => ?_, fun s h z sl hg hh => ?_,
    fun s h z hv => exec_answers_handleInvalid rfl hv⟩
  · obtain rfl := (StepSize.getElem?_eq_some_iff c z).1 hc
    exact (decode_commandWord 0x5#4 h _).trans (decodeSetstep_eq_ok_iff.2 ⟨z, rfl, rfl⟩)
  · obtain ⟨e, he⟩ := decodeSetstep_error (h := h.toNat) hv
    exact ⟨e, (decode_commandWord 0x5#4 h v).trans he⟩
  · obtain ⟨t, he, hslot, hgpio, hans⟩ := completes_of_holds (i := .setstep h z) rfl hh rfl
    exact ⟨t, he, hslot, hgpio ▸ writtenBy_msWrite sl.bind (encMs z) hg, hans⟩

/-- Settles O30: the codes are the decoder's, and the one write decides the bits of the DIR line. -/
theorem setdirDrivesTheDirLine : Obligations.SetdirDrivesTheDirLine := by
  refine ⟨fun h d c hc => ?_, fun h v hv => ?_, fun s h d sl hg hh => ?_,
    fun s h d hv => exec_answers_handleInvalid rfl hv⟩
  · obtain rfl := (Direction.getElem?_eq_some_iff c d).1 hc
    exact (decode_commandWord 0x9#4 h _).trans (decodeSetdir_eq_ok_iff.2 ⟨d, rfl, rfl⟩)
  · obtain ⟨e, he⟩ := decodeSetdir_error (h := h.toNat) hv
    exact ⟨e, (decode_commandWord 0x9#4 h v).trans he⟩
  · obtain ⟨t, he, hslot, hgpio, hans⟩ := completes_of_holds (i := .setdir h d) rfl hh rfl
    exact ⟨t, he, hslot, hgpio ▸ writtenBy_pinWrite sl.bind.dir (encDir d) hg, hans⟩

/-- Settles O32: STEP is one write of its line and writes no slot. -/
theorem stepSetsTheStepLine : Obligations.StepSetsTheStepLine :=
  ⟨bareEncoding_of_decodeFields fun _ _ => rfl,
    fun _ _ sl hg hh => ⟨_, exec_motor_of_holds rfl hh, rfl, writtenBy_pinWrite sl.bind.step true hg,
      rfl, rfl, rfl, rfl, rfl⟩,
    fun _ _ hv => exec_answers_handleInvalid rfl hv⟩

/-- Settles O34: the bits outside the areas, the surroundings, and the fields by what a command can do to a slot. -/
theorem commandsChangeOnlyTheirOwnState : Obligations.CommandsChangeOnlyTheirOwnState := by
  intro i s t hg he
  obtain ⟨hsame, hlength⟩ := exec_surroundings he
  refine ⟨fun r k => exec_bit_of_uncovered hg he, hsame, hlength, fun j a b ha hb => ?_⟩
  cases exec_slotWrite he ha hb with
  | constructed v hj =>
    have hc : ∃ v', Instr.construct v = .construct v' ∧ s.Allocates j := ⟨v, rfl, hj⟩
    exact ⟨fun _ => .inl hc, fun _ => hc, fun _ => .inl hc, fun _ => .inl hc, fun _ => .inl hc, fun _ => .inl hc⟩
  | kept | destructed | speed | stepSize | position | direction => simp

/-- Settles O24: SETSPEED writes one field of one slot. -/
theorem setspeedStoresTheSpeed : Obligations.SetspeedStoresTheSpeed :=
  ⟨fun h v => decode_commandWord 0x3#4 h v, fun _ h v _ hh => completes_of_holds (i := .setspeed h v) rfl hh rfl,
    fun _ _ _ hv => exec_answers_handleInvalid rfl hv⟩

/-- Settles O25: GETSPEED answers the field, and CONSTRUCT has stored its operand there. -/
theorem getspeedReturnsTheSpeed : Obligations.GetspeedReturnsTheSpeed :=
  ⟨bareEncoding_of_decodeFields fun _ _ => rfl, fun _ _ _ hh => exec_getspeed_of_holds hh,
    fun _ _ hv => exec_answers_handleInvalid rfl hv, afterConstruct_of_holds fun _ _ _ _ hh => exec_getspeed_of_holds hh⟩

/-- Settles O27: GETSTEP answers the code of the field, and CONSTRUCT has stored Full, of code 0. -/
theorem getstepReturnsTheStoredCode : Obligations.GetstepReturnsTheStoredCode := by
  refine ⟨bareEncoding_of_decodeFields fun _ _ => rfl, fun s h sl c hh hc => ?_,
    fun _ _ hv => exec_answers_handleInvalid rfl hv, afterConstruct_of_holds fun _ _ _ _ hh => exec_getstep_of_holds hh⟩
  rw [(StepSize.getElem?_eq_some_iff c _).1 hc]
  exact exec_getstep_of_holds hh

/-- Settles O28: SETPOS stores on one side of `POS_MAX` and only answers on the other. -/
theorem setposStoresALegalPosition : Obligations.SetposStoresALegalPosition := by
  refine ⟨fun h v => decode_commandWord 0x7#4 h v, fun s h v sl hh hle => ?_, fun s h v sl hh hlt => ?_,
    fun s h v hv => exec_answers_handleInvalid rfl hv⟩
  · have hc := completes_of_holds (i := .setpos h v) rfl hh (if_neg (Nat.not_lt.2 hle))
    rwa [motorSlot, if_neg (Nat.not_lt.2 hle)] at hc
  · exact (exec_motor_of_holds rfl hh).trans (congrArg _ (if_pos hlt))

/-- Settles O29: GETPOS answers the field, which every slot holds legal, and CONSTRUCT has stored 0. -/
theorem getposReturnsTheTarget : Obligations.GetposReturnsTheTarget := by
  refine ⟨bareEncoding_of_decodeFields fun _ _ => rfl,
    fun s h sl hh => ⟨exec_getpos_of_holds hh, fun hpos => ?_⟩,
    fun _ _ hv => exec_answers_handleInvalid rfl hv, afterConstruct_of_holds fun _ _ _ _ hh => exec_getpos_of_holds hh⟩
  rw [BitVec.toNat_setWidth_of_le (by decide)]
  exact hpos sl hh.mem

/-- Settles O31: GETDIR answers the code of the field, and CONSTRUCT has stored Forward, of code 0. -/
theorem getdirReturnsTheStoredCode : Obligations.GetdirReturnsTheStoredCode := by
  refine ⟨bareEncoding_of_decodeFields fun _ _ => rfl, fun s h sl c hh hc => ?_,
    fun _ _ hv => exec_answers_handleInvalid rfl hv, afterConstruct_of_holds fun _ _ _ _ hh => exec_getdir_of_holds hh⟩
  rw [(Direction.getElem?_eq_some_iff c _).1 hc]
  exact exec_getdir_of_holds hh

end Sys2Proof.Spec

/-! ## Errors: illegal words, refusals and what an error leaves (60_exceptions.md) -/

/-! ### The words that spell no command (R164) -/

namespace Sys2Proof

theorem exists_error_iff {ε α : Type} {x : Except ε α} : (∃ e, x = .error e) ↔ ∀ a, x ≠ .ok a :=
  ⟨fun ⟨_, he⟩ _ ha => (nomatch he.symm.trans ha), exists_error_of_forall_ne_ok⟩

theorem decodeBare_error_iff {b : Byte} {c : Instr} : (∃ e, decodeBare b c = .error e) ↔ b.toNat ≠ 0 := by
  simp [exists_error_iff, decodeBare_eq_ok_iff, BitVec.toNat_eq]

theorem decodeConstruct_error_iff {h : BitVec 4} {b : Byte} : (∃ e, decodeConstruct h b = .error e) ↔ h.toNat ≠ 0 := by
  simp [exists_error_iff, decodeConstruct_eq_ok_iff, BitVec.toNat_eq]

/-- Every number up to 4 is a step code (30_encoding.md R88). -/
theorem StepSize.exists_code {n : Nat} (hn : n ≤ 4) : ∃ z : StepSize, z.code = n := by
  have hlt : n < [StepSize.full, .half, .quarter, .eighth, .sixteenth].length := Nat.lt_succ_of_le hn
  exact ⟨_, ((StepSize.getElem?_eq_some_iff n _).1 (List.getElem?_eq_getElem hlt)).symm⟩

/-- 0 and 1 are the direction codes (30_encoding.md R90). -/
theorem Direction.exists_code {n : Nat} (hn : n ≤ 1) : ∃ d : Direction, d.code = n := by
  have hlt : n < [Direction.forward, .backward].length := Nat.lt_succ_of_le hn
  exact ⟨_, ((Direction.getElem?_eq_some_iff n _).1 (List.getElem?_eq_getElem hlt)).symm⟩

/-- SETSTEP rejects exactly the bytes above the greatest step code (30_encoding.md R87). -/
theorem decodeSetstep_error_iff {h : Nat} {b : Byte} : (∃ e, decodeSetstep h b = .error e) ↔ 4 < b.toNat := by
  refine ⟨fun he => ?_, decodeSetstep_error⟩
  by_contra hle
  obtain ⟨z, hz⟩ := StepSize.exists_code (Nat.le_of_not_lt hle)
  have hb : b = BitVec.ofNat 8 z.code := by rw [hz, BitVec.ofNat_toNat, BitVec.setWidth_eq]
  exact exists_error_iff.1 he _ (decodeSetstep_eq_ok_iff.2 ⟨z, hb, rfl⟩)

/-- SETDIR rejects exactly the bytes above the greatest direction code (30_encoding.md R89). -/
theorem decodeSetdir_error_iff {h : Nat} {b : Byte} : (∃ e, decodeSetdir h b = .error e) ↔ 1 < b.toNat := by
  refine ⟨fun he => ?_, decodeSetdir_error⟩
  by_contra hle
  obtain ⟨d, hd⟩ := Direction.exists_code (Nat.le_of_not_lt hle)
  have hb : b = BitVec.ofNat 8 d.code := by rw [hd, BitVec.ofNat_toNat, BitVec.setWidth_eq]
  exact exists_error_iff.1 he _ (decodeSetdir_eq_ok_iff.2 ⟨d, hb, rfl⟩)

namespace Spec

/-- The spec's list of illegal words is the decoder's, opcode by opcode (30_encoding.md R84, R94). -/
theorem illegalFields_iff (w : Word) : IllegalFields w ↔ ∃ e, decode w = .error e := by
  obtain ⟨hop, hh, hb⟩ := fields_toNat w
  simp only [IllegalFields, ← hop, ← hh, ← hb]
  unfold decode decodeFields
  split
  · next h => simp [h, decodeConstruct_error_iff]
  · next h => simp [h, decodeBare_error_iff]
  · next h => simp [h]
  · next h => simp [h, decodeBare_error_iff]
  · next h =>
    have hcode : 8 ≤ (imm8Field w).toNat ∨ 4 < (imm8Field w).toNat % 8 ↔ 4 < (imm8Field w).toNat := by omega
    simp [h, hcode, decodeSetstep_error_iff]
  · next h => simp [h, decodeBare_error_iff]
  · next h => simp [h]
  · next h => simp [h, decodeBare_error_iff]
  · next h => simp [h, decodeSetdir_error_iff]
  · next h => simp [h, decodeBare_error_iff]
  · next h => simp [h, decodeBare_error_iff]
  · have hlt : (opField w).toNat < 16 := (opField w).isLt
    have hout : (opField w).toNat = 0 ∨ 0xC ≤ (opField w).toNat := by grind
    exact iff_of_true (hout.imp_right .inl) ⟨_, rfl⟩

end Spec

end Sys2Proof

/-! ### What a command that is refused or ends in an error has met (R51, R165) -/

namespace Sys2Proof.Machine

open Sys2Proof.Spec

/-- Everything a command can answer: only CONSTRUCT is ever refused (20_memory.md R51; entry 9). -/
theorem exec_next_or_refused (i : Instr) (s : State) :
    (∃ t, exec i s = .next t) ∨
      ∃ speed, i = .construct speed ∧ (∃ sl ∈ s.slots, sl.status = .inactive) ∧
        bindingsPlain s.notPlain s.cfgIn = false ∧ exec i s = .refused .bindingNotPlain := by
  cases i with
  | construct speed =>
    cases hl : leastInactive s.slots with
    | none => exact .inl ⟨_, exec_construct_of_full ((leastInactive_eq_none_iff _).1 hl)⟩
    | some k =>
      have hk : s.Allocates k := (leastInactive_eq_some_iff _ _).1 hl
      cases hp : bindingsPlain s.notPlain s.cfgIn with
      | true => exact .inl ⟨_, exec_construct_of_allocates hk hp⟩
      | false =>
        obtain ⟨sl, hsl, hinactive⟩ := hk.1
        have hleft : ∃ sl ∈ s.slots, sl.status = .inactive := ⟨sl, List.mem_of_getElem? hsl, hinactive⟩
        exact .inr ⟨speed, rfl, hleft, rfl, exec_construct_of_unplain hleft hp⟩
  | destruct h =>
    cases hs : s.slots[h]? with
    | none => exact .inl ⟨_, exec_destruct_of_none hs⟩
    | some sl => exact .inl ⟨_, exec_destruct_of_some hs⟩
  | _ => exact .inl ⟨_, exec_motor rfl s⟩

/-- A motor command that does not end Ok on a valid handle is a SETPOS above `POS_MAX`, and it writes nothing. -/
theorem afterMotor_unchanged {i : Instr} {h : Nat} {s : State} {sl : Slot} (hh : s.Holds h sl)
    (hne : (motorAnswer i s.posMax sl).1 ≠ .ok) :
    (s.afterMotor i h sl).slots = s.slots ∧ (s.afterMotor i h sl).gpio = s.gpio := by
  cases i with
  | setpos j v =>
    have hv : s.posMax.toNat < v.toNat := by
      by_contra hle
      exact hne (by rw [motorAnswer, if_neg hle])
    have hslots : s.slots.set h sl = s.slots := congrArg State.slots (State.setSlot_self hh.1)
    exact ⟨by rw [State.afterMotor_slots, motorSlot, if_pos hv, hslots], rfl⟩
  | _ => exact absurd rfl hne

/-- A command answers one word, and with a status other than Ok it has written nothing (R165). -/
theorem exec_unchanged_of_error {i : Instr} {s t : State} (he : exec i s = .next t) :
    ∃ c d, t.responses = s.responses ++ [responseWord c d] ∧ (c ≠ .ok → t.slots = s.slots ∧ t.gpio = s.gpio) := by
  obtain ⟨speed, -, ⟨-, rfl⟩ | ⟨k, -, -, rfl⟩⟩ | ⟨j, -, ⟨sl, -, rfl⟩ | ⟨-, rfl⟩⟩ |
    ⟨j, -, ⟨sl, hh, rfl⟩ | ⟨-, rfl⟩⟩ := exec_forms he
  · exact ⟨.poolExhausted, 0#8, rfl, fun _ => ⟨rfl, rfl⟩⟩
  · exact ⟨.ok, zext8 k, rfl, fun hne => absurd rfl hne⟩
  · exact ⟨.ok, 0#8, rfl, fun hne => absurd rfl hne⟩
  · exact ⟨.ok, 0#8, rfl, fun hne => absurd rfl hne⟩
  · exact ⟨_, _, rfl, afterMotor_unchanged hh⟩
  · exact ⟨.handleInvalid, 0#8, rfl, fun _ => ⟨rfl, rfl⟩⟩

end Sys2Proof.Machine

namespace Sys2Proof.Spec

open Sys2Proof.Machine

/-- Settles O9: the decoder rejects exactly the listed words, and the step on a rejected word only answers. -/
theorem illegalWordChangesNothing : Obligations.IllegalWordChangesNothing := by
  refine ⟨illegalFields_iff, fun s w cfg rest hi hw => ?_⟩
  obtain ⟨e, hd⟩ := (illegalFields_iff w).1 hw
  exact ⟨_, step_of_illegal hi hd, rfl, rfl, rfl, rfl, rfl, rfl⟩

/-- Settles O10: by the next input; only a command can be refused, and of those only CONSTRUCT. -/
theorem stepStopsOnlyOnUnplainConfiguration : Obligations.StepStopsOnlyOnUnplainConfiguration := by
  intro s
  cases hi : s.inputs with
  | nil => exact .inl ⟨s, by simp only [step, hi]⟩
  | cons x rest =>
    cases x with
    | external r v => exact .inl ⟨_, step_of_external hi⟩
    | reset => exact .inl ⟨_, step_of_reset hi⟩
    | command w cfg =>
      cases hd : decode w with
      | error e => exact .inl ⟨_, step_of_illegal hi hd⟩
      | ok i =>
        rw [step_of_legal hi hd]
        obtain hnext | ⟨speed, rfl, hleft, hplain, hrefused⟩ := exec_next_or_refused i (s.sample cfg rest)
        · exact .inl hnext
        · exact .inr ⟨hrefused, w, cfg, rest, speed, rfl, hd, hplain, hleft⟩

/-- Settles O13: an illegal word writes nothing, and a command that ends in an error has written nothing. -/
theorem errorLeavesNoPartialState : Obligations.ErrorLeavesNoPartialState := by
  intro s t w cfg rest hi hstep
  cases hd : decode w with
  | error e =>
    rw [step_of_illegal hi hd] at hstep
    cases hstep
    exact ⟨0x0400#16, rfl, fun _ => ⟨rfl, rfl⟩⟩
  | ok i =>
    rw [step_of_legal hi hd] at hstep
    obtain ⟨c, d, hr, hsame⟩ := exec_unchanged_of_error hstep
    refine ⟨responseWord c d, hr, fun hne => hsame ?_⟩
    rwa [responseWord_status, ne_eq, c.code_eq_zero_iff] at hne

end Sys2Proof.Spec

/-! ## Reset and hazards: reset, reused handles, a second STEP, and runs (70_reset_and_hazards.md) -/

/-! ### The pool after reset (R190) -/

namespace Sys2Proof.Machine

/-- Reset leaves only Inactive slots (R190). -/
theorem Slot.inactive_of_mem_reset {n : Nat} {sl : Slot} (h : sl ∈ List.replicate n Slot.reset) :
    sl.status = .inactive := by
  rw [List.eq_of_mem_replicate h, Slot.reset_status]

/-- After reset every slot is Inactive, and the position it has there is 0 (entry 4). -/
theorem State.Inv.resetWith {p : Params} (hp : p.Legal) : (State.resetWith p).Inv := by
  obtain ⟨hlow, hhigh, hg⟩ := hp
  have hlen : (State.resetWith p).slots.length = p.slotCount := List.length_replicate
  refine ⟨⟨hlen ▸ hlow, hlen ▸ hhigh⟩, hg, fun sl hsl => ?_, fun sl hsl hactive => ?_⟩
  · rw [List.eq_of_mem_replicate hsl, Slot.reset_desiredPos]
    exact Nat.zero_le _
  · cases hactive.symm.trans (Slot.inactive_of_mem_reset hsl)

/-- With no input the block waits (R190; entry 6). -/
theorem step_of_no_input {s : State} (hs : s.inputs = []) : step s = .next s := by
  simp only [step, hs]

/-! ### A handle whose slot is destroyed and allocated again (R194) -/

/-- DESTRUCT of a slot below which every slot is Active makes it the lowest Inactive one. -/
theorem State.allocates_of_destroyed {s : State} {h : Nat} {sl : Slot} (hs : s.slots[h]? = some sl)
    (hlow : ∀ j, j < h → ∃ a, s.slots[j]? = some a ∧ a.status = .active) :
    ((s.setSlot h { sl with status := .inactive }).respond .ok 0#8).Allocates h := by
  refine ⟨⟨_, List.getElem?_set_self (List.getElem?_eq_some_iff.1 hs).1, rfl⟩, fun j hj => ?_⟩
  obtain ⟨a, ha, hactive⟩ := hlow j hj
  exact ⟨a, (List.getElem?_set_ne hj.ne').trans ha, hactive⟩

/-- The slot CONSTRUCT allocates holds the new occupant (40_pool.md R110). -/
theorem State.Allocates.holds_afterConstruct {s : State} {i : Nat} (hi : s.Allocates i) (speed : Byte) :
    (s.afterConstruct speed i).Holds i (Slot.constructed s.cfgIn speed) :=
  ⟨List.getElem?_set_self hi.lt, rfl⟩

/-! ### A bit set once (R196) -/

section PinSet

variable {g : Memory}

theorem bitOf_pinSet_of_set (b : PinBinding) (hg : g.wf = true) {r : RegId} {k : Nat} (hbit : bitOf g r k = true) :
    bitOf (pinSet b g) r k = true := by
  rw [bitOf_pinSet b r k hg, hbit, ite_self]

/-- The bits of the mask are set already, so the second write stores what it has read. -/
theorem pinSet_pinSet (b : PinBinding) (hg : g.wf = true) : pinSet b (pinSet b g) = pinSet b g := by
  have hread : (pinSet b g).read b.port ||| b.mask = (pinSet b g).read b.port := by
    rw [pinSet, Memory.read_write_self _ _ hg, BitVec.or_assoc, BitVec.or_self]
  calc pinSet b (pinSet b g)
      = (pinSet b g).write b.port ((pinSet b g).read b.port) := congrArg _ hread
    _ = pinSet b g := Memory.write_read_self _ (wf_pinSet b hg)

end PinSet

/-- Everything a command that checks its handle first can do (41_motor_control.md R120). -/
theorem exec_motor_cases {i : Instr} {h : Nat} (hi : i.checkedHandle? = some h) {s t : State}
    (he : exec i s = .next t) :
    (∃ sl, s.Holds h sl ∧ t = motorResult i sl s) ∨ (s.Invalid h ∧ t = s.raise .handleInvalid) := by
  obtain rfl := Host.Outcome.next.inj ((exec_motor hi s).symm.trans he)
  exact s.onActive_cases h _

/-! ### One step of a run (R204) -/

section Step

open Sys2Proof.Spec

variable {s t : State}

/-- A step takes the oldest input off the list (entry 5). -/
theorem step_inputs (h : step s = .next t) : t.inputs = s.inputs.tail := by
  obtain ⟨hi, rfl⟩ | ⟨w, cfg, rest, i, hi, -, he⟩ | ⟨w, cfg, rest, e, hi, -, rfl⟩ | ⟨r, v, rest, hi, rfl⟩ |
    ⟨rest, hi, rfl⟩ := step_cases h
  · simp [hi]
  · obtain ⟨-, -, -, -, hinputs⟩ := exec_keeps he
    simp [hi, hinputs]
  all_goals simp [hi]

/-- A command adds one response, any other input none (30_encoding.md R81). -/
theorem step_responses {x : Input} {rest : List Input} (hi : s.inputs = x :: rest) (h : step s = .next t) :
    ∃ new : List Word, t.responses = s.responses ++ new ∧ new.length = [x].countP Input.isCommand := by
  cases x with
  | command w cfg =>
    obtain ⟨r, hr, -⟩ := errorLeavesNoPartialState s t w cfg rest hi h
    exact ⟨[r], hr, rfl⟩
  | external r v =>
    obtain rfl := Host.Outcome.next.inj ((step_of_external hi).symm.trans h)
    exact ⟨[], (List.append_nil _).symm, rfl⟩
  | reset =>
    obtain rfl := Host.Outcome.next.inj ((step_of_reset hi).symm.trans h)
    exact ⟨[], (List.append_nil _).symm, rfl⟩

/-- On plain registers no step is refused (R193; 20_memory.md R51). -/
theorem State.HostDutiful.step_next (hd : s.HostDutiful) : ∃ t, step s = .next t := by
  obtain hnext | ⟨-, w, cfg, rest, speed, hi, -, hunplain, -⟩ := stepStopsOnlyOnUnplainConfiguration s
  · exact hnext
  · have hplain : bindingsPlain s.notPlain cfg = true := hd (.command w cfg) (hi ▸ List.mem_cons_self)
    cases hplain.symm.trans hunplain

/-- The inputs left after a step keep the duty, for a step changes no register's plainness (R193). -/
theorem State.HostDutiful.of_step (hd : s.HostDutiful) (h : step s = .next t) : t.HostDutiful := by
  obtain ⟨-, -, hplain⟩ := stepKeepsTheParameters s t h
  rw [State.HostDutiful, step_inputs h, hplain]
  exact fun x hx => hd x (List.mem_of_mem_tail hx)

end Step

/-- A run over a list of inputs on plain registers uses it up and answers its commands (R204). -/
theorem core_run_answers {xs : List Input} {s : State} (hs : s.inputs = xs) (hd : s.HostDutiful) :
    ∃ t : State, Host.Core.run core xs.length s = .next t ∧ t.inputs = [] ∧
      ∃ new : List Word, t.responses = s.responses ++ new ∧ new.length = xs.countP Input.isCommand := by
  induction xs generalizing s with
  | nil => exact ⟨s, rfl, hs, [], (List.append_nil _).symm, rfl⟩
  | cons x xs ih =>
    obtain ⟨u, hstep⟩ := hd.step_next
    have hu : u.inputs = xs := by rw [step_inputs hstep, hs, List.tail_cons]
    obtain ⟨first, hfirst, hone⟩ := step_responses hs hstep
    obtain ⟨t, hrun, ht, later, hlater, hrest⟩ := ih hu (hd.of_step hstep)
    refine ⟨t, (core_run_of_next hstep _).trans hrun, ht, first ++ later, ?_, ?_⟩
    · rw [hlater, hfirst, List.append_assoc]
    · rw [List.length_append, hone, hrest]
      exact List.countP_append.symm

end Sys2Proof.Machine

namespace Sys2Proof.Spec

open Sys2Proof.Machine

/-- Settles O23: the destroyed slot is the lowest Inactive one, so CONSTRUCT allocates it. -/
theorem staleHandleNamesNewOccupant : Obligations.StaleHandleNamesNewOccupant := by
  intro s h sl speed hn hh hlow hplain
  have ha := State.allocates_of_destroyed hh.1 hlow
  have hlt : h < 256 := by have := hh.lt; omega
  refine ⟨_, _, exec_destruct_of_some hh.1, exec_construct_of_allocates ha hplain, ?_,
    _, ha.holds_afterConstruct speed, rfl, rfl⟩
  rw [State.respond_responses, responseWord_handle hlt]
  exact List.append_assoc _ _ _

/-- Settles O33: STEP is one `PinSet`, which clears no bit and done twice is done once. -/
theorem stepNeverClearsABit : Obligations.StepNeverClearsABit := by
  intro s t h hg he
  obtain ⟨sl, hh, rfl⟩ | ⟨hv, rfl⟩ := exec_motor_cases rfl he
  · exact ⟨fun r k => bitOf_pinSet_of_set sl.bind.step hg, _, exec_motor_of_holds rfl hh,
      pinSet_pinSet sl.bind.step hg, rfl⟩
  · exact ⟨fun r k hbit => hbit, _, exec_motor_of_invalid rfl hv, rfl, rfl⟩

/-- Settles O47, by induction on the list of inputs. -/
theorem runAnswersEveryCommand : Obligations.RunAnswersEveryCommand :=
  fun _ hd => core_run_answers rfl hd

/-- Settles O8: the block waits. -/
theorem blockWaitsWithoutInput : Obligations.BlockWaitsWithoutInput :=
  fun _ hs => step_of_no_input hs

/-- Settles O38: the pool is `N` copies of one Inactive slot, and the parameters are taken over. -/
theorem resetStateIsEmptyPool : Obligations.ResetStateIsEmptyPool :=
  ⟨fun _ => ⟨List.length_replicate, fun _ => Slot.inactive_of_mem_reset, fun _ => rfl, rfl, rfl, rfl⟩, rfl, rfl, rfl⟩

/-- Settles O39: a reset writes the slots and no GPIO register. -/
theorem resetClearsNoGpioRegister : Obligations.ResetClearsNoGpioRegister :=
  fun _ _ hi => ⟨_, step_of_reset hi, List.length_replicate, fun _ => Slot.inactive_of_mem_reset, rfl, rfl, rfl, rfl⟩

/-- Settles O41: at all legal parameters, of which the defaults are one choice. -/
theorem invariantHoldsAtReset : Obligations.InvariantHoldsAtReset :=
  ⟨fun _ => State.Inv.resetWith, State.Inv.resetWith (p := Config.defaults) (by decide)⟩

end Sys2Proof.Spec
